-- ==== Sys2Proof/Word.lean ====
section
/-! DEFINITION. The machine's word types (00_scope.md R11: every value is unsigned; 10_state.md R100, R105). -/

namespace Sys2Proof

/-- u8: a register, a timer, a byte of memory (R11, R100). -/
abbrev Byte := BitVec 8

/-- u16: pc, SP, I and an instruction word (R105, R120, R121, R300). -/
abbrev Word := BitVec 16

/-- A 4-bit digit of an instruction word (R10, R301). -/
abbrev Nibble := Fin 16

/-- The number of a general register, 0 to 15 (R100). -/
abbrev Reg := Fin 16

/-- VF, the flag register (R101). -/
abbrev VF : Reg := 15

end Sys2Proof
end

