-- ==== Sys2Proof/Config.lean ====
section
/-! DEFINITION. The parameters the source leaves open (00_scope.md R9, 92_eei_decisions.md) and the one free
value, the random byte of Cxnn. The values the spec gives the parameters stand in Machine/Params.lean. -/

namespace Sys2Proof

/-- STACK_CHECK (R9, D3): no depth test, or a limit of `depth` entries. -/
inductive StackCheck where
  | unchecked
  | checked (depth : Nat)
  deriving DecidableEq, Repr

/-- VF_ORDER (R116, R461, D9): which of the flag and the result is written last. -/
inductive VfOrder where
  | flagLast
  | resultLast
  deriving DecidableEq, Repr

/-- DRAW_OPERAND_READ (R407, D10): whether Dxyn reads its coordinates at each pixel or once before. -/
inductive DrawOperandRead where
  | live
  | latched
  deriving DecidableEq, Repr

/-- SPRITE_BIT_ORDER (R405, D11): which bit of a sprite byte is column 0. -/
inductive SpriteBitOrder where
  | msbFirst
  | lsbFirst
  deriving DecidableEq, Repr

/-- GLYPH_WRITE_POLICY (R206, D13): what a write below 0x050 does. -/
inductive GlyphWritePolicy where
  | fault
  | allow
  deriving DecidableEq, Repr

/-- FB_EXPORT_LAYOUT (R640, D18), OPEN: an argument of `framebuffer`. -/
inductive FbExportLayout where
  | packed256
  | bytePerPixel2048
  deriving DecidableEq, Repr

/-- END_OF_RUN (R723, D27), OPEN: an argument of `atEndOfRun`. -/
inductive EndOfRun where
  | selfJump
  | waiting
  deriving DecidableEq, Repr

/-- The parameters of R9 that a model takes as configuration. `addrRegWidth` is ADDR_REG_WIDTH (D4, U30), the width
of pc, SP and I: at most the 16 bits 10_state.md holds them in (log 20). -/
structure Config where
  addrRegWidth     : Fin 17
  stackBase        : Word
  stackCheck       : StackCheck
  decodeStrict     : Bool
  vfOrder          : VfOrder
  drawOperandRead  : DrawOperandRead
  spriteBitOrder   : SpriteBitOrder
  glyphTable       : Vector Byte 80
  glyphWritePolicy : GlyphWritePolicy
  fx29Mask         : Bool
  deriving DecidableEq, Repr

/-- The values R9 allows: `checked(depth)` has depth at least 1; pc, which reaches 0x1003 (R108), and the empty
stack's SP (R121) fit in ADDR_REG_WIDTH bits (DEDUCED, log 20). -/
def Config.wf (c : Config) : Bool :=
  decide (13 ≤ c.addrRegWidth.val) && decide (c.stackBase.toNat < 2 ^ c.addrRegWidth.val) &&
  match c.stackCheck with
  | .unchecked => true
  | .checked d => decide (1 ≤ d)

/-- FREE VALUE (R472, D17; log 8): the byte that the `k`-th execution of Cxnn draws. It has no body: a claim
that uses it holds for every draw. -/
opaque Config.randomByte : Nat → Byte

end Sys2Proof
end

