-- ==== Sys2Proof/Machine/Params.lean ====
section
/-! DEFINITION. The spec's values of the parameters (00_scope.md R9; log 4, 5). -/

namespace Sys2Proof.Machine

/-- GLYPH_TABLE of R131, digit by digit. PRESUMED (general knowledge, K1; log 5). -/
def fontBytes : List Byte :=
  [0xF0, 0x90, 0x90, 0x90, 0xF0] ++ [0x20, 0x60, 0x20, 0x20, 0x70] ++
  [0xF0, 0x10, 0xF0, 0x80, 0xF0] ++ [0xF0, 0x10, 0xF0, 0x10, 0xF0] ++
  [0x90, 0x90, 0xF0, 0x10, 0x10] ++ [0xF0, 0x80, 0xF0, 0x10, 0xF0] ++
  [0xF0, 0x80, 0xF0, 0x90, 0xF0] ++ [0xF0, 0x10, 0x20, 0x40, 0x40] ++
  [0xF0, 0x90, 0xF0, 0x90, 0xF0] ++ [0xF0, 0x90, 0xF0, 0x10, 0xF0] ++
  [0xF0, 0x90, 0xF0, 0x90, 0x90] ++ [0xE0, 0x90, 0xE0, 0x90, 0xE0] ++
  [0xF0, 0x80, 0x80, 0x80, 0xF0] ++ [0xE0, 0x90, 0x90, 0x90, 0xE0] ++
  [0xF0, 0x80, 0xF0, 0x80, 0xF0] ++ [0xF0, 0x80, 0xF0, 0x80, 0x80]

/-- The font as the 80-byte table the loader installs. -/
def fontTable : Vector Byte 80 := ⟨fontBytes.toArray, by decide⟩

/-- The parameter values this spec takes (R9). DESIGN CHOICE of the spec, log 4. -/
def specConfig : Config where
  addrRegWidth     := 16
  stackBase        := 0xFA0
  stackCheck       := .unchecked
  decodeStrict     := true
  vfOrder          := .flagLast
  drawOperandRead  := .live
  spriteBitOrder   := .msbFirst
  glyphTable       := fontTable
  glyphWritePolicy := .fault
  fx29Mask         := false

end Sys2Proof.Machine
end

