-- ==== Sys2Proof/Syntax.lean ====
section
/-! DEFINITION. The 34 instructions (30_encoding.md R310 to R332), one constructor per row of
spec/opcode_table.json. Digits of the word that an instruction ignores are kept as fields (`d`, the y of 8xy6
and 8xyE, the n of 5xy0 and 9xy0), so that an instruction names exactly one word in either decoding mode
(R303; log 12). -/

namespace Sys2Proof

inductive Instr where
  /-- 00E0 CLS (R400); `d` is the digit w[11:8], 0 under DECODE_STRICT. -/
  | cls (d : Nibble)
  /-- 00EE RET (R424); `d` is the digit w[11:8], 0 under DECODE_STRICT. -/
  | ret (d : Nibble)
  /-- 1nnn JP nnn (R420). -/
  | jp (nnn : BitVec 12)
  /-- 2nnn CALL nnn (R421). -/
  | call (nnn : BitVec 12)
  /-- 3xnn SE Vx, nn (R440). -/
  | seImm (x : Reg) (nn : Byte)
  /-- 4xnn SNE Vx, nn (R441). -/
  | sneImm (x : Reg) (nn : Byte)
  /-- 5xy0 SE Vx, Vy (R442); `d` is the digit w[3:0], 0 under DECODE_STRICT. -/
  | seReg (x y : Reg) (d : Nibble)
  /-- 6xnn LD Vx, nn (R460). -/
  | ldImm (x : Reg) (nn : Byte)
  /-- 7xnn ADD Vx, nn (R462). -/
  | addImm (x : Reg) (nn : Byte)
  /-- 8xy0 LD Vx, Vy (R463). -/
  | ldReg (x y : Reg)
  /-- 8xy1 OR Vx, Vy (R464). -/
  | orReg (x y : Reg)
  /-- 8xy2 AND Vx, Vy (R465). -/
  | andReg (x y : Reg)
  /-- 8xy3 XOR Vx, Vy (R466). -/
  | xorReg (x y : Reg)
  /-- 8xy4 ADD Vx, Vy (R467). -/
  | addReg (x y : Reg)
  /-- 8xy5 SUB Vx, Vy (R468). -/
  | subReg (x y : Reg)
  /-- 8xy6 SHR Vx (R469); y is ignored. -/
  | shr (x : Reg) (y : Nibble)
  /-- 8xy7 SUBN Vx, Vy (R470). -/
  | subnReg (x y : Reg)
  /-- 8xyE SHL Vx (R471); y is ignored. -/
  | shl (x : Reg) (y : Nibble)
  /-- 9xy0 SNE Vx, Vy (R443); `d` is the digit w[3:0], 0 under DECODE_STRICT. -/
  | sneReg (x y : Reg) (d : Nibble)
  /-- Annn LD I, nnn (R490). -/
  | ldI (nnn : BitVec 12)
  /-- Bnnn JP V0, nnn (R427). -/
  | jpV0 (nnn : BitVec 12)
  /-- Cxnn RND Vx, nn (R472). -/
  | rnd (x : Reg) (nn : Byte)
  /-- Dxyn DRW Vx, Vy, n (R404); n is a row count. -/
  | drw (x y : Reg) (n : Nibble)
  /-- Ex9E SKP Vx (R444). -/
  | skp (x : Reg)
  /-- ExA1 SKNP Vx (R445). -/
  | sknp (x : Reg)
  /-- Fx07 LD Vx, DT (R520). -/
  | ldVxDt (x : Reg)
  /-- Fx0A LD Vx, K (R522). -/
  | ldVxKey (x : Reg)
  /-- Fx15 LD DT, Vx (R525). -/
  | ldDtVx (x : Reg)
  /-- Fx18 LD ST, Vx (R526). -/
  | ldStVx (x : Reg)
  /-- Fx1E ADD I, Vx (R492). -/
  | addI (x : Reg)
  /-- Fx29 LD F, Vx (R494). -/
  | ldF (x : Reg)
  /-- Fx33 LD B, Vx (R496). -/
  | ldB (x : Reg)
  /-- Fx55 LD [I], Vx (R498). -/
  | store (x : Reg)
  /-- Fx65 LD Vx, [I] (R500). -/
  | load (x : Reg)
  deriving DecidableEq, Repr

end Sys2Proof
end

