-- ==== Sys2Proof/WellFormed.lean ====
section
/-! DEFINITION. Which instruction terms are instructions of the repertoire (30_encoding.md R303, R320, R330). -/

namespace Sys2Proof

/-- Under DECODE_STRICT the unused digits of 00E0, 00EE, 5xy0 and 9xy0 must be 0 (R330, D8); every other field
admits all its values. -/
def Instr.wf (strict : Bool) : Instr → Bool
  | .cls d | .ret d => !strict || decide (d = 0)
  | .seReg _ _ d | .sneReg _ _ d => !strict || decide (d = 0)
  | .jp _ | .call _ | .ldI _ | .jpV0 _ => true
  | .seImm _ _ | .sneImm _ _ | .ldImm _ _ | .addImm _ _ | .rnd _ _ => true
  | .ldReg _ _ | .orReg _ _ | .andReg _ _ | .xorReg _ _ | .addReg _ _ | .subReg _ _ | .subnReg _ _ => true
  | .shr _ _ | .shl _ _ => true
  | .drw _ _ _ => true
  | .skp _ | .sknp _ => true
  | .ldVxDt _ | .ldVxKey _ | .ldDtVx _ | .ldStVx _ => true
  | .addI _ | .ldF _ | .ldB _ | .store _ | .load _ => true

end Sys2Proof
end

