-- ==== Sys2Proof/Decode.lean ====
section
/-! DEFINITION. The decoder, total on every word and rejecting by name (30_encoding.md R300 to R332), and the
encoder written from the same tables (R301, R311, R320 to R323; spec/opcode_table.json). -/

namespace Sys2Proof

/-! ### Bytes and words (20_memory.md R208, R209: big-endian) -/

/-- `(hi << 8) | lo` (R11, R300). -/
def joinBytes (hi lo : Byte) : Word := BitVec.ofNat 16 (hi.toNat * 256 + lo.toNat)

/-- `w[15:8]`. -/
def hiByte (w : Word) : Byte := BitVec.ofNat 8 (w.toNat / 256)

/-- `w[7:0]`. -/
def loByte (w : Word) : Byte := BitVec.ofNat 8 w.toNat

/-! ### The six fields (R301) -/

/-- op = w[15:12]. -/
def opField (w : Word) : Nat := w.toNat / 4096

/-- x = w[11:8]. -/
def xField (w : Word) : Nibble := ⟨w.toNat / 256 % 16, Nat.mod_lt _ (by decide)⟩

/-- y = w[7:4]. -/
def yField (w : Word) : Nibble := ⟨w.toNat / 16 % 16, Nat.mod_lt _ (by decide)⟩

/-- n = w[3:0]. -/
def nField (w : Word) : Nibble := ⟨w.toNat % 16, Nat.mod_lt _ (by decide)⟩

/-- nn = w[7:0]. -/
def nnField (w : Word) : Byte := BitVec.ofNat 8 w.toNat

/-- nnn = w[11:0]. -/
def nnnField (w : Word) : BitVec 12 := BitVec.ofNat 12 w.toNat

/-! ### The decoder -/

/-- Why bytes are no instruction. -/
inductive DecodeError where
  /-- The word has no handler (R330, R331). -/
  | unknownInstruction (w : Word)
  /-- Fewer than two bytes: every instruction is two bytes (R300, R340). -/
  | truncated
  deriving DecidableEq, Repr

/-- Family 0 (R320): the x digit must be 0 under DECODE_STRICT. -/
def decode0 (strict : Bool) (w : Word) : Except DecodeError Instr :=
  if strict && decide (xField w ≠ 0) then .error (.unknownInstruction w)
  else if nnField w = 0xE0 then .ok (.cls (xField w))
  else if nnField w = 0xEE then .ok (.ret (xField w))
  else .error (.unknownInstruction w)

/-- Family 8 (R321). -/
def decode8 (w : Word) : Except DecodeError Instr :=
  match (nField w).val with
  | 0x0 => .ok (.ldReg (xField w) (yField w))
  | 0x1 => .ok (.orReg (xField w) (yField w))
  | 0x2 => .ok (.andReg (xField w) (yField w))
  | 0x3 => .ok (.xorReg (xField w) (yField w))
  | 0x4 => .ok (.addReg (xField w) (yField w))
  | 0x5 => .ok (.subReg (xField w) (yField w))
  | 0x6 => .ok (.shr (xField w) (yField w))
  | 0x7 => .ok (.subnReg (xField w) (yField w))
  | 0xE => .ok (.shl (xField w) (yField w))
  | _ => .error (.unknownInstruction w)

/-- Family E (R322). -/
def decodeE (w : Word) : Except DecodeError Instr :=
  if nnField w = 0x9E then .ok (.skp (xField w))
  else if nnField w = 0xA1 then .ok (.sknp (xField w))
  else .error (.unknownInstruction w)

/-- Family F (R323). -/
def decodeF (w : Word) : Except DecodeError Instr :=
  if nnField w = 0x07 then .ok (.ldVxDt (xField w))
  else if nnField w = 0x0A then .ok (.ldVxKey (xField w))
  else if nnField w = 0x15 then .ok (.ldDtVx (xField w))
  else if nnField w = 0x18 then .ok (.ldStVx (xField w))
  else if nnField w = 0x1E then .ok (.addI (xField w))
  else if nnField w = 0x29 then .ok (.ldF (xField w))
  else if nnField w = 0x33 then .ok (.ldB (xField w))
  else if nnField w = 0x55 then .ok (.store (xField w))
  else if nnField w = 0x65 then .ok (.load (xField w))
  else .error (.unknownInstruction w)

/-- The decoder (R332): dispatch on op, R311. -/
def decode (strict : Bool) (w : Word) : Except DecodeError Instr :=
  match opField w with
  | 0x0 => decode0 strict w
  | 0x1 => .ok (.jp (nnnField w))
  | 0x2 => .ok (.call (nnnField w))
  | 0x3 => .ok (.seImm (xField w) (nnField w))
  | 0x4 => .ok (.sneImm (xField w) (nnField w))
  | 0x5 =>
    if strict && decide (nField w ≠ 0) then .error (.unknownInstruction w)
    else .ok (.seReg (xField w) (yField w) (nField w))
  | 0x6 => .ok (.ldImm (xField w) (nnField w))
  | 0x7 => .ok (.addImm (xField w) (nnField w))
  | 0x8 => decode8 w
  | 0x9 =>
    if strict && decide (nField w ≠ 0) then .error (.unknownInstruction w)
    else .ok (.sneReg (xField w) (yField w) (nField w))
  | 0xA => .ok (.ldI (nnnField w))
  | 0xB => .ok (.jpV0 (nnnField w))
  | 0xC => .ok (.rnd (xField w) (nnField w))
  | 0xD => .ok (.drw (xField w) (yField w) (nField w))
  | 0xE => decodeE w
  | _ => decodeF w

/-- Decoding from bytes: the first two bytes, big-endian, and the bytes after them. -/
def decodeBytes (strict : Bool) : List Byte → Except DecodeError (Instr × List Byte)
  | b0 :: b1 :: rest =>
    match decode strict (joinBytes b0 b1) with
    | .ok i => .ok (i, rest)
    | .error e => .error e
  | _ => .error .truncated

/-! ### The encoder -/

/-- The word with the four digits op, x, y, n. -/
def wordXYN (op : Nat) (x y n : Nibble) : Word :=
  BitVec.ofNat 16 (op * 4096 + x.val * 256 + y.val * 16 + n.val)

/-- The word with op, x and the byte nn. -/
def wordXNN (op : Nat) (x : Nibble) (nn : Byte) : Word :=
  BitVec.ofNat 16 (op * 4096 + x.val * 256 + nn.toNat)

/-- The word with op and the address nnn. -/
def wordNNN (op : Nat) (nnn : BitVec 12) : Word := BitVec.ofNat 16 (op * 4096 + nnn.toNat)

/-- The word of an instruction (R303, R311, R320 to R323). -/
def encode : Instr → Word
  | .cls d => wordXNN 0x0 d 0xE0
  | .ret d => wordXNN 0x0 d 0xEE
  | .jp nnn => wordNNN 0x1 nnn
  | .call nnn => wordNNN 0x2 nnn
  | .seImm x nn => wordXNN 0x3 x nn
  | .sneImm x nn => wordXNN 0x4 x nn
  | .seReg x y d => wordXYN 0x5 x y d
  | .ldImm x nn => wordXNN 0x6 x nn
  | .addImm x nn => wordXNN 0x7 x nn
  | .ldReg x y => wordXYN 0x8 x y 0x0
  | .orReg x y => wordXYN 0x8 x y 0x1
  | .andReg x y => wordXYN 0x8 x y 0x2
  | .xorReg x y => wordXYN 0x8 x y 0x3
  | .addReg x y => wordXYN 0x8 x y 0x4
  | .subReg x y => wordXYN 0x8 x y 0x5
  | .shr x y => wordXYN 0x8 x y 0x6
  | .subnReg x y => wordXYN 0x8 x y 0x7
  | .shl x y => wordXYN 0x8 x y 0xE
  | .sneReg x y d => wordXYN 0x9 x y d
  | .ldI nnn => wordNNN 0xA nnn
  | .jpV0 nnn => wordNNN 0xB nnn
  | .rnd x nn => wordXNN 0xC x nn
  | .drw x y n => wordXYN 0xD x y n
  | .skp x => wordXNN 0xE x 0x9E
  | .sknp x => wordXNN 0xE x 0xA1
  | .ldVxDt x => wordXNN 0xF x 0x07
  | .ldVxKey x => wordXNN 0xF x 0x0A
  | .ldDtVx x => wordXNN 0xF x 0x15
  | .ldStVx x => wordXNN 0xF x 0x18
  | .addI x => wordXNN 0xF x 0x1E
  | .ldF x => wordXNN 0xF x 0x29
  | .ldB x => wordXNN 0xF x 0x33
  | .store x => wordXNN 0xF x 0x55
  | .load x => wordXNN 0xF x 0x65

/-- The two bytes of an instruction, the first at the lower address (R208). -/
def encodeBytes (i : Instr) : List Byte := [hiByte (encode i), loByte (encode i)]

/-- An instruction's (match, mask) in spec/opcode_table.json: its strict row, digits R303 ignores included. -/
def Instr.tableRow : Instr → Word × Word
  | .cls _ => (0x00E0, 0xFFFF)
  | .ret _ => (0x00EE, 0xFFFF)
  | .jp _ => (0x1000, 0xF000)
  | .call _ => (0x2000, 0xF000)
  | .seImm _ _ => (0x3000, 0xF000)
  | .sneImm _ _ => (0x4000, 0xF000)
  | .seReg _ _ _ => (0x5000, 0xF00F)
  | .ldImm _ _ => (0x6000, 0xF000)
  | .addImm _ _ => (0x7000, 0xF000)
  | .ldReg _ _ => (0x8000, 0xF00F)
  | .orReg _ _ => (0x8001, 0xF00F)
  | .andReg _ _ => (0x8002, 0xF00F)
  | .xorReg _ _ => (0x8003, 0xF00F)
  | .addReg _ _ => (0x8004, 0xF00F)
  | .subReg _ _ => (0x8005, 0xF00F)
  | .shr _ _ => (0x8006, 0xF00F)
  | .subnReg _ _ => (0x8007, 0xF00F)
  | .shl _ _ => (0x800E, 0xF00F)
  | .sneReg _ _ _ => (0x9000, 0xF00F)
  | .ldI _ => (0xA000, 0xF000)
  | .jpV0 _ => (0xB000, 0xF000)
  | .rnd _ _ => (0xC000, 0xF000)
  | .drw _ _ _ => (0xD000, 0xF000)
  | .skp _ => (0xE09E, 0xF0FF)
  | .sknp _ => (0xE0A1, 0xF0FF)
  | .ldVxDt _ => (0xF007, 0xF0FF)
  | .ldVxKey _ => (0xF00A, 0xF0FF)
  | .ldDtVx _ => (0xF015, 0xF0FF)
  | .ldStVx _ => (0xF018, 0xF0FF)
  | .addI _ => (0xF01E, 0xF0FF)
  | .ldF _ => (0xF029, 0xF0FF)
  | .ldB _ => (0xF033, 0xF0FF)
  | .store _ => (0xF055, 0xF0FF)
  | .load _ => (0xF065, 0xF0FF)

/-! ### The host's reading of the opcode table -/

/-- The word whose low bits are `w`, `nbits` of them (every instruction is one 16-bit word, R300). -/
def tableWord (nbits w : Nat) : Word := BitVec.ofNat 16 (w % 2 ^ min nbits 16)

/-- What the decoder, with the spec's parameters, reads from the table's word laid out as two bytes (R208). -/
def decodeTableWord (nbits w : Nat) : Option Instr :=
  match decodeBytes Machine.specConfig.decodeStrict [hiByte (tableWord nbits w), loByte (tableWord nbits w)] with
  | .ok (i, _) => some i
  | .error _ => none

end Sys2Proof
end

