-- ==== Sys2Proof/Machine/State.lean ====
section
/-! DEFINITION. The machine's state (10_state.md), its state after reset (R140, R700), and the reasons a step
can stop. -/

namespace Sys2Proof.Machine

/-! ### Faults as the spec records them (60_exceptions.md R601, R603) -/

/-- The eight fault kinds of R601. -/
inductive FaultKind where
  | outOfBounds
  | unknownInstruction
  | loadError
  | initializationFailure
  | protectedWrite
  | invalidKey
  | stackOverflow
  | stackUnderflow
  deriving DecidableEq, Repr

/-- A fault record (R603). -/
structure FaultRecord where
  kind : FaultKind
  info : BitVec 32
  pc   : Word
  word : Option Word
  deriving DecidableEq, Repr

/-! ### The units of work still to come (20_memory.md R212, R216; log 7) -/

/-- The host agent's operations (60_exceptions.md R632 to R645). -/
inductive HostOp where
  | press (k : Nat)
  | release (k : Nat)
  | isHalted
  | displayChanged
  | framebuffer (layout : FbExportLayout)
  | tickTimers
  | readFault
  | load (bytes : List Byte)
  | shutdown
  deriving DecidableEq, Repr

/-- A unit of work of one of the three agents (R633). -/
inductive AgentUnit where
  | cpu
  | timer
  | host (op : HostOp)
  deriving DecidableEq, Repr

/-- Before the first successful load, after it, and after the shutdown (R634, R701, R703; log 11). -/
inductive Phase where
  | created
  | running
  | ended
  deriving DecidableEq, Repr

/-- Memory: the bytes that differ from what load leaves there, as (address, byte) pairs with addresses strictly
rising (`Memory.wf` in Machine/Memory.lean; log 9). -/
abbrev Memory := List Host.Cell

/-- The MachineState of 10_state.md under the spec's own names, then the model's own four fields. -/
structure State where
  /-- V0 to VF (R100). -/
  V       : Vector Byte 16
  /-- The index register (R120). -/
  I       : Word
  /-- The program counter (R105). -/
  pc      : Word
  /-- The stack pointer (R121). -/
  SP      : Word
  /-- The delay timer (R122). -/
  DT      : Byte
  /-- The sound timer (R122). -/
  ST      : Byte
  /-- The key press states (R125). -/
  Key     : Vector Bool 16
  /-- The display, `Pix[px][py]` (R128). -/
  Pix     : Vector (Vector Bool 32) 64
  /-- The display-changed flag (R124). -/
  changed : Bool
  /-- The key-wait flag (R123). -/
  halted  : Bool
  /-- The address space (R131, R200). -/
  Mem     : Memory
  /-- The fault status (R126). -/
  fault   : Option FaultRecord
  /-- The model's own: whether the agents may move (log 11). -/
  phase   : Phase
  /-- The model's own: the parameters of R9, written by no step (log 3). -/
  cfg     : Config
  /-- The model's own: how many random bytes were drawn (log 8). -/
  draws   : Nat
  /-- The model's own: the units of work still to come, oldest first; when empty the CPU moves (log 7). -/
  agenda  : List AgentUnit
  deriving DecidableEq, Repr

/-- The reset state: what `load` of an empty image leaves (R140, R700, R702; log 1, 2). -/
def State.reset : State where
  V       := Vector.replicate 16 0
  I       := 0
  pc      := 0x200
  SP      := specConfig.stackBase
  DT      := 0
  ST      := 0
  Key     := Vector.replicate 16 false
  Pix     := Vector.replicate 64 (Vector.replicate 32 false)
  changed := false
  halted  := false
  Mem     := []
  fault   := none
  phase   := .running
  cfg     := specConfig
  draws   := 0
  agenda  := []

/-- Why the machine stops. Raised by Machine/Cpu.lean only. All are safe: the spec gives the machine no further
step there. -/
inductive Fault where
  /-- A CPU step after a fault returns the existing record and changes nothing (R604, R632). Raised by a CPU
  unit of work on a state whose `fault` is set, in every phase. Safe. -/
  | recorded (r : FaultRecord)
  /-- A CPU step before the first successful load, no fault set: no agent has a step there (R701, R703). Safe. -/
  | notLoaded
  /-- Any unit of work after the shutdown but a CPU step with a fault set, which `recorded` stops: no state change
  follows it (R634). Safe. -/
  | shutDown
  deriving DecidableEq, Repr

/-- Why an instruction has no meaning. -/
inductive Refusal where
  /-- Raised by an arm of `exec` whose instruction has no meaning yet; none is left. Safe. -/
  | notModelled (mnemonic : String)
  deriving DecidableEq, Repr

/-- The outcome of a step or of an instruction. -/
abbrev Result := Host.Outcome State Fault Refusal

end Sys2Proof.Machine
end

