-- ==== Sys2Proof/Machine/Memory.lean ====
section
/-! DEFINITION. The byte list that holds the address space (20_memory.md R200, R201; log 9): its canonical form,
reading and writing one byte and a run of bytes. The address checks stand in Machine/Ops.lean. -/

namespace Sys2Proof.Machine

/-- The first address after the glyph table (R131, R206). -/
def glyphEnd : Nat := 0x050

/-- What an address that is not listed reads as: what load leaves there, the glyph table below 0x050 and 0x00
elsewhere (R140, R201). -/
def Memory.unlisted (t : Vector Byte 80) (a : Nat) : Byte :=
  if h : a < 80 then t[a] else 0

/-- The byte at address `a`. -/
def Memory.read (t : Vector Byte 80) : Memory → Nat → Byte
  | [], a => Memory.unlisted t a
  | (k, v) :: rest, a => if k = a then v else Memory.read t rest a

/-- Put a cell in front unless it holds what its address reads as unlisted. -/
def Memory.cons (t : Vector Byte 80) (a : Nat) (b : Byte) (m : Memory) : Memory :=
  if b = Memory.unlisted t a then m else (a, b) :: m

/-- Write one byte, keeping the canonical form. -/
def Memory.write (t : Vector Byte 80) : Memory → Nat → Byte → Memory
  | [], a, b => Memory.cons t a b []
  | (k, v) :: rest, a, b =>
    if a < k then Memory.cons t a b ((k, v) :: rest)
    else if a = k then Memory.cons t a b rest
    else (k, v) :: Memory.write t rest a b

/-- Write the bytes `bs` at `a`, `a+1`, ... -/
def Memory.writeBytes (t : Vector Byte 80) (m : Memory) (a : Nat) : List Byte → Memory
  | [] => m
  | b :: bs => Memory.writeBytes t (Memory.write t m a b) (a + 1) bs

/-- The memory whose bytes from `a` on are `bs` and whose other bytes are as load leaves them (R702). -/
def Memory.image (t : Vector Byte 80) (a : Nat) : List Byte → Memory
  | [] => []
  | b :: bs => Memory.cons t a b (Memory.image t (a + 1) bs)

/-- The canonical form above a bound: addresses at least `lo` and strictly rising, no cell equal to what its
address reads as unlisted. -/
def Memory.wfFrom (t : Vector Byte 80) (lo : Nat) : Memory → Bool
  | [] => true
  | (k, v) :: rest => decide (lo ≤ k) && decide (v ≠ Memory.unlisted t k) && Memory.wfFrom t (k + 1) rest

/-- The canonical form: equal memories are equal lists. -/
def Memory.wf (t : Vector Byte 80) (m : Memory) : Bool := Memory.wfFrom t 0 m

/-- Every listed address is in the address space (R200). -/
def Memory.inSpace (m : Memory) : Bool := m.all fun c => decide (c.1 < 4096)

/-- The memory that is zero everywhere (R701). -/
def Memory.zeroed (t : Vector Byte 80) : Memory := Memory.image t 0 (List.replicate 80 0)

/-- `Mem[a]` of a state (R12). -/
def State.read (s : State) (a : Nat) : Byte := Memory.read s.cfg.glyphTable s.Mem a

/-- `Mem[a], Mem[a+1], ... <- bs` of a state, without the checks. -/
def State.writeBytes (s : State) (a : Nat) (bs : List Byte) : State :=
  { s with Mem := Memory.writeBytes s.cfg.glyphTable s.Mem a bs }

end Sys2Proof.Machine
end

