-- ==== Sys2Proof/Machine/Ops.lean ====
section
/-! DEFINITION. The shared operations: registers, pixels and keys, the pc's advance, the access checks
(20_memory.md R203, R206), taking a fault (60_exceptions.md R603, R604) and load, the only way to run again
after one (R608, 70_reset_and_hazards.md R702), the stack (41_control_flow.md R422, R423) and the fetch (R210). -/

namespace Sys2Proof.Machine

/-! ### Registers, keys, pixels -/

/-- `V[r]` (R12). -/
def State.getV (s : State) (r : Reg) : Byte := s.V[r]

/-- `V[r] <- b` (R12). -/
def State.setV (s : State) (r : Reg) (b : Byte) : State := { s with V := s.V.set r b }

/-- `Key[k]` (R12). -/
def State.getKey (s : State) (k : Fin 16) : Bool := s.Key[k]

/-- `Key[k] <- b`; only the host agent does this (R125). -/
def State.setKey (s : State) (k : Fin 16) (b : Bool) : State := { s with Key := s.Key.set k b }

/-- `Pix[px][py]` (R12, R128). -/
def State.pixel (s : State) (px : Fin 64) (py : Fin 32) : Bool := s.Pix[px][py]

/-- `Pix[px][py] <- b`. -/
def State.setPixel (s : State) (px : Fin 64) (py : Fin 32) (b : Bool) : State :=
  { s with Pix := s.Pix.set px (s.Pix[px].set py b) }

/-- Some key is pressed (R631). -/
def State.someKey (s : State) : Bool := (List.finRange 16).any fun k => s.getKey k

/-! ### The pc (10_state.md R106, R109) -/

/-- `pc <- pc + 2`. In a state whose pc is 0xFFFE or more the sum wraps; no instruction runs there (log 13). -/
def State.advance (s : State) : State := { s with pc := s.pc + 2 }

/-- The skip (42_skips.md R446): +4 when the condition holds, else +2. -/
def State.skipIf (s : State) (c : Bool) : State := { s with pc := s.pc + (if c then 4 else 2) }

/-- An explicit set of pc to an address (R16 "None"). -/
def State.jump (s : State) (target : Nat) : State := { s with pc := BitVec.ofNat 16 target }

/-! ### The wrap of I and SP (R204, D4) -/

/-- What an update of I or SP leaves: the low ADDR_REG_WIDTH bits, mod 65536 at the spec's width 16 (R120, R422, R423,
R492); other widths: log 20. -/
def wrapAddr (c : Config) (n : Nat) : Word := BitVec.ofNat 16 (n % 2 ^ c.addrRegWidth.val)

/-! ### Conditions that raise a fault -/

/-- The number of a fault kind (R601). -/
def FaultKind.code : FaultKind → Nat
  | .outOfBounds => 1
  | .unknownInstruction => 2
  | .loadError => 3
  | .initializationFailure => 4
  | .protectedWrite => 5
  | .invalidKey => 6
  | .stackOverflow => 7
  | .stackUnderflow => 8

/-- What a failed check raises: a kind and the info of R601. -/
structure Cause where
  kind : FaultKind
  info : Nat
  deriving DecidableEq, Repr

/-- The access check of R203: an address of 4096 or more raises OutOfBounds. -/
def resolve (a : Nat) : Option Cause :=
  if 4096 ≤ a then some ⟨.outOfBounds, a⟩ else none

/-- The check of a write (R206): OutOfBounds, then ProtectedWrite under GLYPH_WRITE_POLICY = fault. -/
def checkWrite (p : GlyphWritePolicy) (a : Nat) : Option Cause :=
  (resolve a).or (if a < glyphEnd ∧ p = .fault then some ⟨.protectedWrite, a⟩ else none)

/-- The first failing check among `a`, `a+1`, ..., `a+n-1`, in ascending order (R14, R605). -/
def firstFailing (check : Nat → Option Cause) (a : Nat) : Nat → Option Cause
  | 0 => none
  | n + 1 => (check a).or (firstFailing check (a + 1) n)

/-! ### Taking a fault, and running again -/

/-- Taking a fault (R603, R604, R607): the record is set and NOTHING else changes. There is no trap entry, no
handler and no return from a fault (R607, R608); the only way to run again is `loadImage`. -/
def raise (c : Cause) (w : Option Word) (s : State) : State :=
  { s with fault := some ⟨c.kind, BitVec.ofNat 32 c.info, s.pc, w⟩ }

/-- An instruction whose checks precede its first write (R15, R604): the first failing check is raised with the
instruction's word, otherwise the instruction completes with the state `done`. -/
def guarded (check : Option Cause) (w : Word) (s done : State) : Result :=
  match check with
  | some c => .next (raise c (some w) s)
  | none => .next done

/-- The largest image (R8, R702). -/
def maxProgramSize : Nat := 3584

/-- Where an image is loaded and where execution starts (R8, R202). -/
def programOrigin : Nat := 0x200

/-- `load(bytes)` (R702): a full reset with the image at 0x200, or LoadError with nothing else changed. The
record's pc and word are the model's choice (log 10). -/
def loadImage (bytes : List Byte) (s : State) : State :=
  if maxProgramSize < bytes.length then raise ⟨.loadError, bytes.length⟩ none s
  else
    { s with
      Mem := Memory.image s.cfg.glyphTable programOrigin bytes
      V := Vector.replicate 16 0
      I := 0
      DT := 0
      ST := 0
      Key := Vector.replicate 16 false
      Pix := Vector.replicate 64 (Vector.replicate 32 false)
      changed := false
      halted := false
      SP := s.cfg.stackBase
      pc := BitVec.ofNat 16 programOrigin
      fault := none
      phase := .running }

/-- The machine at creation, before any load (R701): all zero. -/
def createdState (c : Config) : State where
  V       := Vector.replicate 16 0
  I       := 0
  pc      := 0
  SP      := 0
  DT      := 0
  ST      := 0
  Key     := Vector.replicate 16 false
  Pix     := Vector.replicate 64 (Vector.replicate 32 false)
  changed := false
  halted  := false
  Mem     := Memory.zeroed c.glyphTable
  fault   := none
  phase   := .created
  cfg     := c
  draws   := 0
  agenda  := []

/-! ### The stack (R422, R423) -/

/-- The 16-bit value at `a`, high byte first (R13, R209). -/
def State.readWord (s : State) (a : Nat) : Word := joinBytes (s.read a) (s.read (a + 1))

/-- The address of the new top entry: SP + 2, wrapped (R422). -/
def pushAddr (s : State) : Word := wrapAddr s.cfg (s.SP.toNat + 2)

/-- The depth test of R422 on exact integers (R11; log 15). -/
def overflowCheck (s : State) : Option Cause :=
  match s.cfg.stackCheck with
  | .unchecked => none
  | .checked d =>
    if (d : Int) ≤ ((s.SP.toNat : Int) - (s.cfg.stackBase.toNat : Int)) / 2 then
      some ⟨.stackOverflow, s.SP.toNat⟩
    else none

/-- All checks of a push, in order (R422, R605). -/
def pushCheck (s : State) : Option Cause :=
  (overflowCheck s).or (firstFailing (checkWrite s.cfg.glyphWritePolicy) (pushAddr s).toNat 2)

/-- The writes of a push (R422). -/
def push (a : Word) (s : State) : State :=
  { s.writeBytes (pushAddr s).toNat [hiByte a, loByte a] with SP := pushAddr s }

/-- The empty-stack test of R423. -/
def underflowCheck (s : State) : Option Cause :=
  match s.cfg.stackCheck with
  | .unchecked => none
  | .checked _ => if s.SP = s.cfg.stackBase then some ⟨.stackUnderflow, s.SP.toNat⟩ else none

/-- All checks of a pop, in order (R423, R605). -/
def popCheck (s : State) : Option Cause :=
  (underflowCheck s).or (firstFailing resolve s.SP.toNat 2)

/-- The value a pop returns (R423). -/
def popValue (s : State) : Word := s.readWord s.SP.toNat

/-- The state a pop leaves: SP - 2, wrapped; the entry's bytes stay (R423, D30). -/
def pop (s : State) : State := { s with SP := wrapAddr s.cfg (s.SP.toNat + 2 ^ s.cfg.addrRegWidth.val - 2) }

/-! ### The fetch (20_memory.md R210) -/

/-- The two bytes at pc, each address checked in order. -/
def fetch (s : State) : Except Cause Word :=
  match firstFailing resolve s.pc.toNat 2 with
  | some c => .error c
  | none => .ok (s.readWord s.pc.toNat)

/-- `s` with the bytes of `w` at its pc. -/
def State.putWordAtPc (s : State) (w : Word) : State := s.writeBytes s.pc.toNat [hiByte w, loByte w]

/-- `s` made ready to run the instruction word `w` next (log 2): the word at pc, and only where the fetch needs
it a pc that can be fetched, a running phase, no recorded fault and an empty agenda. -/
def State.withInstruction (s : State) (w : Word) : State :=
  State.putWordAtPc
    { s with
      pc := if s.pc.toNat + 1 < 4096 then s.pc else BitVec.ofNat 16 programOrigin
      phase := .running
      fault := none
      agenda := [] } w

end Sys2Proof.Machine
end

