-- ==== Sys2Proof/Machine/Operands.lean ====
section
/-! DEFINITION. The operand forms (30_encoding.md R302; 44_index_memory.md R502): immediates, the address nnn,
I plus an offset, the sprite row's bit and the pixel it falls on, the digits and the registers a block operation
moves, the key a register names. -/

namespace Sys2Proof.Machine

/-- `zext_16(nnn)` (R302). -/
def zext16 (nnn : BitVec 12) : Word := BitVec.ofNat 16 nnn.toNat

/-- The address I + offset, exact (R204, R502). -/
def indexAddr (s : State) (offset : Nat) : Nat := s.I.toNat + offset

/-- The decimal digits hundreds, tens, ones (R496). -/
def decimalDigits (b : Byte) : List Byte :=
  [BitVec.ofNat 8 (b.toNat / 100), BitVec.ofNat 8 (b.toNat / 10 % 10), BitVec.ofNat 8 (b.toNat % 10)]

/-- V[0] to V[x], the bytes Fx55 stores (R498). -/
def lowRegisters (x : Reg) (s : State) : List Byte := s.V.toList.take (x.val + 1)

/-- V[0] to V[x] loaded from I on (R500). -/
def loadRegisters (x : Reg) (s : State) : State :=
  { s with V := Vector.ofFn fun i : Fin 16 => if i.val ≤ x.val then s.read (indexAddr s i.val) else s.V[i] }

/-- The glyph address of a digit (R494). -/
def glyphAddr (mask : Bool) (d : Byte) : Nat :=
  5 * (if mask then (d &&& 0xF).toNat else d.toNat)

/-- The sprite bit of a column (R405). -/
def spriteBit (order : SpriteBitOrder) (b : Byte) (col : Nat) : Bool :=
  match order with
  | .msbFirst => b.getLsbD (7 - col)
  | .lsbFirst => b.getLsbD col

/-- A column of the display, mod 64 (R404). -/
def columnOf (n : Nat) : Fin 64 := ⟨n % 64, Nat.mod_lt _ (by decide)⟩

/-- A row of the display, mod 32 (R404). -/
def rowOf (n : Nat) : Fin 32 := ⟨n % 32, Nat.mod_lt _ (by decide)⟩

/-- A coordinate of Dxyn (R407): the register as it is now (`live`) or as it was before the draw (`latched`). -/
def drawCoord (r : Reg) (before now : State) : Nat :=
  match now.cfg.drawOperandRead with
  | .live => (now.getV r).toNat
  | .latched => (before.getV r).toNat

/-- A key test's own check (R447): a key number above 15 raises InvalidKey. -/
def keyCheck (x : Reg) (s : State) : Option Cause :=
  if 15 < (s.getV x).toNat then some ⟨.invalidKey, (s.getV x).toNat⟩ else none

/-- The key that V[x] names, once `keyCheck` has passed (R444). -/
def keyNamed (x : Reg) (s : State) : Bool := s.getKey ⟨(s.getV x).toNat % 16, Nat.mod_lt _ (by decide)⟩

/-- The lowest-numbered pressed key (R522). -/
def lowestKey (s : State) : Option (Fin 16) := (List.finRange 16).find? fun k => s.getKey k

end Sys2Proof.Machine
end

