-- ==== Sys2Proof/Machine/Agents.lean ====
section
/-! DEFINITION. The timer agent's tick and the host agent's operations (60_exceptions.md R604, R620, R640 to
R645). -/

namespace Sys2Proof.Machine

/-- The agents other than the host's `load` and queries may move (R604, R701, R703; log 11). -/
def agentsMove (s : State) : Bool := decide (s.phase = .running) && decide (s.fault = none)

/-- The CPU agent's step is enabled (R612, R631). -/
def cpuEnabled (s : State) : Bool := agentsMove s && (!s.halted || s.someKey)

/-- A timer's decrement, saturating at 0 (R620). -/
def countDown (t : Byte) : Byte := if 0 < t.toNat then t - 1 else t

/-- `tick()` (R620): both timers in one unit; it has no step after a fault or before a load (R604, R703). -/
def tick (s : State) : State :=
  if agentsMove s then { s with DT := countDown s.DT, ST := countDown s.ST } else s

/-- What a host operation returns. -/
inductive HostReply where
  | done
  | refused
  | flag (b : Bool)
  | bytes (bs : List Byte)
  | record (r : Option FaultRecord)
  deriving DecidableEq, Repr

/-- `press(k)` and `release(k)` set Key[k] (R643, R644); refused for k outside 0 to 15 and after a fault. -/
def setKeyOp (k : Nat) (b : Bool) (s : State) : State × HostReply :=
  if h : k < 16 then
    if agentsMove s then (s.setKey ⟨k, h⟩ b, .done) else (s, .refused)
  else (s, .refused)

/-- One byte of the packed layout (R640): bit 7 is the leftmost column. -/
def packedByte (s : State) (j : Nat) : Byte :=
  (List.range 8).foldl
    (fun b k => if s.pixel (columnOf (8 * (j % 8) + k)) (rowOf (j / 8)) then b ||| (0x80#8 >>> k) else b) 0

/-- `framebuffer()` in the layout asked for (R640; log 18). -/
def framebuffer (layout : FbExportLayout) (s : State) : List Byte :=
  match layout with
  | .packed256 => (List.range 256).map (packedByte s)
  | .bytePerPixel2048 => (List.range 2048).map fun j => if s.pixel (columnOf j) (rowOf (j / 64)) then 1 else 0

/-- A host operation: the state it leaves and what it returns (R604, R640 to R645). After the shutdown every
operation is refused (R634; log 17). -/
def hostCall (op : HostOp) (s : State) : State × HostReply :=
  if s.phase = .ended then (s, .refused)
  else
    match op with
    | .press k => setKeyOp k true s
    | .release k => setKeyOp k false s
    | .isHalted => (s, .flag s.halted)
    | .displayChanged => ({ s with changed := false }, .flag s.changed)
    | .framebuffer layout => (s, .bytes (framebuffer layout s))
    | .tickTimers => if agentsMove s then (tick s, .done) else (s, .refused)
    | .readFault => (s, .record s.fault)
    | .load bytes =>
      (loadImage bytes s, if maxProgramSize < bytes.length then .record (loadImage bytes s).fault else .done)
    | .shutdown => ({ s with phase := .ended }, .done)

end Sys2Proof.Machine
end

