-- ==== Sys2Proof/Machine/Flags.lean ====
section
/-! DEFINITION. The flag computations (10_state.md R115) and the write of a result with a flag (43_alu.md R461). -/

namespace Sys2Proof.Machine

/-- 8xy4: 1 if the sum exceeds 255, else 0 (R467). -/
def carryFlag (a b : Byte) : Byte := if 255 < a.toNat + b.toNat then 1 else 0

/-- 8xy5 and 8xy7: 0 on a borrow of `a - b`, else 1 (R468, R470). -/
def notBorrowFlag (a b : Byte) : Byte := if a.toNat < b.toNat then 0 else 1

/-- 8xy6: the bit shifted out to the right (R469). -/
def lowBitFlag (a : Byte) : Byte := a &&& 1

/-- 8xyE: the bit shifted out to the left (R471). -/
def highBitFlag (a : Byte) : Byte := a >>> 7

/-- The write step of R461: VF_ORDER says which of the two writes is last when x = F. -/
def writeWithFlag (x : Reg) (result flag : Byte) (s : State) : State :=
  match s.cfg.vfOrder with
  | .flagLast => (s.setV x result).setV VF flag
  | .resultLast => (s.setV VF flag).setV x result

end Sys2Proof.Machine
end

