-- ==== Sys2Proof/Machine/Alu.lean ====
section
/-! DEFINITION. Register loads, arithmetic and the random byte (43_alu.md). None raises a fault of its own. -/

namespace Sys2Proof.Machine

/-- 6xnn LD Vx, nn (R460). -/
def execLdImm (x : Reg) (nn : Byte) (s : State) : Result := .next (s.setV x nn).advance

/-- 7xnn ADD Vx, nn (R462): wraps, no flag. -/
def execAddImm (x : Reg) (nn : Byte) (s : State) : Result := .next (s.setV x (s.getV x + nn)).advance

/-- 8xy0 LD Vx, Vy (R463). -/
def execLdReg (x y : Reg) (s : State) : Result := .next (s.setV x (s.getV y)).advance

/-- 8xy1 OR Vx, Vy (R464). -/
def execOrReg (x y : Reg) (s : State) : Result := .next (s.setV x (s.getV x ||| s.getV y)).advance

/-- 8xy2 AND Vx, Vy (R465). -/
def execAndReg (x y : Reg) (s : State) : Result := .next (s.setV x (s.getV x &&& s.getV y)).advance

/-- 8xy3 XOR Vx, Vy (R466). -/
def execXorReg (x y : Reg) (s : State) : Result := .next (s.setV x (s.getV x ^^^ s.getV y)).advance

/-- 8xy4 ADD Vx, Vy (R467). -/
def execAddReg (x y : Reg) (s : State) : Result :=
  .next (writeWithFlag x (s.getV x + s.getV y) (carryFlag (s.getV x) (s.getV y)) s).advance

/-- 8xy5 SUB Vx, Vy (R468). -/
def execSubReg (x y : Reg) (s : State) : Result :=
  .next (writeWithFlag x (s.getV x - s.getV y) (notBorrowFlag (s.getV x) (s.getV y)) s).advance

/-- 8xy6 SHR Vx (R469). -/
def execShr (x : Reg) (s : State) : Result :=
  .next (writeWithFlag x (s.getV x >>> 1) (lowBitFlag (s.getV x)) s).advance

/-- 8xy7 SUBN Vx, Vy (R470). -/
def execSubnReg (x y : Reg) (s : State) : Result :=
  .next (writeWithFlag x (s.getV y - s.getV x) (notBorrowFlag (s.getV y) (s.getV x)) s).advance

/-- 8xyE SHL Vx (R471). -/
def execShl (x : Reg) (s : State) : Result :=
  .next (writeWithFlag x (s.getV x <<< 1) (highBitFlag (s.getV x)) s).advance

/-- Cxnn for a given draw `r` (R472). -/
def rndWithDraw (r : Byte) (x : Reg) (nn : Byte) (s : State) : State := (s.setV x (r &&& nn)).advance

/-- Cxnn RND Vx, nn (R472): the draw is the free value of this execution (log 8). -/
def execRnd (x : Reg) (nn : Byte) (s : State) : Result :=
  .next { rndWithDraw (Config.randomByte s.draws) x nn s with draws := s.draws + 1 }

end Sys2Proof.Machine
end

