-- ==== Sys2Proof/Machine/Control.lean ====
section
/-! DEFINITION. Control transfer (41_control_flow.md). -/

namespace Sys2Proof.Machine

/-- 1nnn JP nnn (R420). -/
def execJp (nnn : BitVec 12) (s : State) : Result := .next (s.jump nnn.toNat)

/-- 2nnn CALL nnn (R421): pushes the call's own address (R106). -/
def execCall (nnn : BitVec 12) (s : State) : Result :=
  guarded (pushCheck s) (encode (.call nnn)) s ((push s.pc s).jump nnn.toNat)

/-- The target of 00EE: the popped address + 2, exact (R424). -/
def returnTarget (s : State) : Nat := (popValue s).toNat + 2

/-- 00EE RET (R424): the pop's checks, then the target's (R428). -/
def execRet (d : Nibble) (s : State) : Result :=
  guarded ((popCheck s).or (resolve (returnTarget s))) (encode (.ret d)) s ((pop s).jump (returnTarget s))

/-- The target of Bnnn: V[0] + nnn, exact (R427). -/
def indexedTarget (nnn : BitVec 12) (s : State) : Nat := (s.getV 0).toNat + nnn.toNat

/-- Bnnn JP V0, nnn (R427). -/
def execJpV0 (nnn : BitVec 12) (s : State) : Result :=
  guarded (resolve (indexedTarget nnn s)) (encode (.jpV0 nnn)) s (s.jump (indexedTarget nnn s))

end Sys2Proof.Machine
end

