-- ==== Sys2Proof/Machine/Display.lean ====
section
/-! DEFINITION. The display instructions (40_display.md). -/

namespace Sys2Proof.Machine

/-- 00E0 CLS (R400). -/
def execCls (s : State) : Result :=
  .next ({ s with Pix := Vector.replicate 64 (Vector.replicate 32 false), changed := true } : State).advance

/-- One pixel of a draw (R404): the collision flag, then the XOR. `before` is the state the draw began in. -/
def drawPixel (x y : Reg) (before : State) (row col : Nat) (s : State) : State :=
  if spriteBit s.cfg.spriteBitOrder (s.read (indexAddr s row)) col then
    let px := columnOf (drawCoord x before s + col)
    let py := rowOf (drawCoord y before s + row)
    if s.pixel px py then (s.setV VF 1).setPixel px py false else s.setPixel px py true
  else s

/-- One sprite row, columns 0 to 7 in order (R404). -/
def drawRow (x y : Reg) (before : State) (row : Nat) (s : State) : State :=
  (List.range 8).foldl (fun t col => drawPixel x y before row col t) s

/-- VF <- 0, then rows 0 to n-1 in order (R404). -/
def drawSprite (x y : Reg) (n : Nat) (s : State) : State :=
  (List.range n).foldl (fun t row => drawRow x y s row t) (s.setV VF 0)

/-- Dxyn DRW Vx, Vy, n (R404, R406): every sprite address is checked before VF or any pixel is written. -/
def execDrw (x y : Reg) (n : Nibble) (s : State) : Result :=
  guarded (firstFailing resolve (indexAddr s 0) n.val) (encode (.drw x y n)) s
    ({ drawSprite x y n.val s with changed := true } : State).advance

end Sys2Proof.Machine
end

