-- ==== Sys2Proof/Machine/Index.lean ====
section
/-! DEFINITION. The index register and the memory block operations (44_index_memory.md). -/

namespace Sys2Proof.Machine

/-- Annn LD I, nnn (R490). -/
def execLdI (nnn : BitVec 12) (s : State) : Result := .next ({ s with I := zext16 nnn } : State).advance

/-- Fx1E ADD I, Vx (R492): I wraps, VF is unchanged. -/
def execAddI (x : Reg) (s : State) : Result :=
  .next ({ s with I := wrapAddr s.cfg (s.I.toNat + (s.getV x).toNat) } : State).advance

/-- Fx29 LD F, Vx (R494). -/
def execLdF (x : Reg) (s : State) : Result :=
  .next ({ s with I := BitVec.ofNat 16 (glyphAddr s.cfg.fx29Mask (s.getV x)) } : State).advance

/-- Fx33 LD B, Vx (R496): all three addresses are checked before any write. -/
def execLdB (x : Reg) (s : State) : Result :=
  guarded (firstFailing (checkWrite s.cfg.glyphWritePolicy) (indexAddr s 0) 3) (encode (.ldB x)) s
    (s.writeBytes (indexAddr s 0) (decimalDigits (s.getV x))).advance

/-- Fx55 LD [I], Vx (R498): all x + 1 addresses are checked before any write; I is unchanged. -/
def execStore (x : Reg) (s : State) : Result :=
  guarded (firstFailing (checkWrite s.cfg.glyphWritePolicy) (indexAddr s 0) (x.val + 1)) (encode (.store x)) s
    (s.writeBytes (indexAddr s 0) (lowRegisters x s)).advance

/-- Fx65 LD Vx, [I] (R500): all x + 1 addresses are checked before any write; I is unchanged. -/
def execLoad (x : Reg) (s : State) : Result :=
  guarded (firstFailing resolve (indexAddr s 0) (x.val + 1)) (encode (.load x)) s (loadRegisters x s).advance

end Sys2Proof.Machine
end

