-- ==== Sys2Proof/Machine/Skips.lean ====
section
/-! DEFINITION. The six conditional skips (42_skips.md). -/

namespace Sys2Proof.Machine

/-- 3xnn SE Vx, nn (R440). -/
def execSeImm (x : Reg) (nn : Byte) (s : State) : Result := .next (s.skipIf (s.getV x == nn))

/-- 4xnn SNE Vx, nn (R441). -/
def execSneImm (x : Reg) (nn : Byte) (s : State) : Result := .next (s.skipIf (s.getV x != nn))

/-- 5xy0 SE Vx, Vy (R442). -/
def execSeReg (x y : Reg) (s : State) : Result := .next (s.skipIf (s.getV x == s.getV y))

/-- 9xy0 SNE Vx, Vy (R443). -/
def execSneReg (x y : Reg) (s : State) : Result := .next (s.skipIf (s.getV x != s.getV y))

/-- Ex9E SKP Vx (R444). -/
def execSkp (x : Reg) (s : State) : Result :=
  guarded (keyCheck x s) (encode (.skp x)) s (s.skipIf (keyNamed x s))

/-- ExA1 SKNP Vx (R445). -/
def execSknp (x : Reg) (s : State) : Result :=
  guarded (keyCheck x s) (encode (.sknp x)) s (s.skipIf (!keyNamed x s))

end Sys2Proof.Machine
end

