-- ==== Sys2Proof/Machine/Timers.lean ====
section
/-! DEFINITION. Timer access and the key wait (45_timers_keywait.md). -/

namespace Sys2Proof.Machine

/-- Fx07 LD Vx, DT (R520). -/
def execLdVxDt (x : Reg) (s : State) : Result := .next (s.setV x s.DT).advance

/-- Fx0A LD Vx, K (R522): the lowest pressed key is captured, or the machine waits with pc unchanged. -/
def execLdVxKey (x : Reg) (s : State) : Result :=
  match lowestKey s with
  | some k => .next (({ s with halted := false } : State).setV x (BitVec.ofNat 8 k.val)).advance
  | none => .next { s with halted := true }

/-- Fx15 LD DT, Vx (R525). -/
def execLdDtVx (x : Reg) (s : State) : Result := .next ({ s with DT := s.getV x } : State).advance

/-- Fx18 LD ST, Vx (R526). -/
def execLdStVx (x : Reg) (s : State) : Result := .next ({ s with ST := s.getV x } : State).advance

end Sys2Proof.Machine
end

