-- ==== Sys2Proof/Machine/Cpu.lean ====
section
/-! DEFINITION. The CPU agent's step (60_exceptions.md R630, R632), a unit of work of any agent, and the unit
that the agenda puts next (20_memory.md R216; log 7). -/

namespace Sys2Proof.Machine

/-- Decode and execute a fetched word (R630): an unknown word raises UnknownInstruction before any write (R332). -/
def runWord (w : Word) (s : State) : Result :=
  match decode s.cfg.decodeStrict w with
  | .error _ => .next (raise ⟨.unknownInstruction, w.toNat⟩ (some w) s)
  | .ok i => exec i s

/-- `cpu_step()` (R630), with the form R632 gives it whenever a fault is set; before a load and after the shutdown
the CPU has no step (R634, R703). While the machine waits it runs the Fx0A at pc again (R523, R632; log 14). -/
def cpuStep (s : State) : Result :=
  match s.fault with
  | some r => .fault (.recorded r)
  | none =>
    match s.phase with
    | .created => .fault .notLoaded
    | .ended => .fault .shutDown
    | .running =>
      match fetch s with
      | .error c => .next (raise c none s)
      | .ok w => runWord w s

/-- One unit of work of an agent (R212, R633). A refused unit changes nothing (log 16). -/
def runUnit (u : AgentUnit) (s : State) : Result :=
  match u with
  | .cpu => cpuStep s
  | .timer => if s.phase = .ended then .fault .shutDown else .next (tick s)
  | .host op => if s.phase = .ended then .fault .shutDown else .next (hostCall op s).1

/-- The unit that moves next: the agenda's oldest, or the CPU's when the agenda is empty. -/
def nextUnit (s : State) : AgentUnit := s.agenda.head?.getD .cpu

/-- The state once the next unit is taken off the agenda. -/
def State.takeUnit (s : State) : State := { s with agenda := s.agenda.tail }

/-- One step of the machine: the next unit of work, run on the state without it. -/
def machineStep (s : State) : Result := runUnit (nextUnit s) s.takeUnit

/-- The host contract's `step()` (R632): one `cpu_step`, and `ok` or the fault record. With no fault set, before a
load or after the shutdown, it is refused (log 22). -/
def stepCall (s : State) : State × HostReply :=
  match cpuStep s with
  | .next t => (t, if t.fault = none then .done else .record t.fault)
  | .fault (.recorded r) => (s, .record (some r))
  | .fault _ => (s, .refused)
  | .refused _ => (s, .refused)

end Sys2Proof.Machine
end

