-- ==== Sys2Proof/Machine/Step.lean ====
section
/-! DEFINITION. The machine's step and the host's way to place an instruction. -/

namespace Sys2Proof.Machine

/-- One unit of work: with an empty agenda, one instruction (R630). -/
def step (s : State) : Host.Outcome State Fault Refusal := machineStep s

/-- `s` ready to run the opcode table's word `w` of `nbits` bits as its very next step (R208; log 2). -/
def State.withFetchWord (s : State) (nbits w : Nat) : State := s.withInstruction (tableWord nbits w)

end Sys2Proof.Machine
end

