-- ==== Sys2Proof/Safety.lean ====
section
/-! DEFINITION. The terms claims are stated in: what an instruction leaves unchanged, its word, the states a
fault leaves, the invariants of the machine, the end of a run (70_reset_and_hazards.md R723), and runs of the
three agents with weak fairness (20_memory.md R216, 70_reset_and_hazards.md R722). -/

namespace Sys2Proof.Machine

/-! ### Frames -/

/-- The parts of the state beside the registers V0 to VF. -/
inductive Part where
  | I | pc | SP | DT | ST | Key | Pix | changed | halted | Mem | fault | phase | cfg | draws | agenda
  deriving DecidableEq, Repr

/-- The part reads the same in both states. Memory is compared byte by byte. -/
def Part.same (p : Part) (s t : State) : Prop :=
  match p with
  | .I => t.I = s.I
  | .pc => t.pc = s.pc
  | .SP => t.SP = s.SP
  | .DT => t.DT = s.DT
  | .ST => t.ST = s.ST
  | .Key => ∀ k, t.getKey k = s.getKey k
  | .Pix => ∀ px py, t.pixel px py = s.pixel px py
  | .changed => t.changed = s.changed
  | .halted => t.halted = s.halted
  | .Mem => ∀ a, t.read a = s.read a
  | .fault => t.fault = s.fault
  | .phase => t.phase = s.phase
  | .cfg => t.cfg = s.cfg
  | .draws => t.draws = s.draws
  | .agenda => t.agenda = s.agenda

/-- `t` differs from `s` at most in the registers `regs` and the parts `parts`. -/
def SameBut (regs : List Reg) (parts : List Part) (s t : State) : Prop :=
  (∀ r, r ∉ regs → t.getV r = s.getV r) ∧ ∀ p, p ∉ parts → p.same s t

/-- Every byte outside `a`, ..., `a + n - 1` reads as before. -/
def MemSameOutside (a n : Nat) (s t : State) : Prop := ∀ b, b < a ∨ a + n ≤ b → t.read b = s.read b

/-- The result and the flag as R461 writes them, for either VF_ORDER (R116). -/
def ResultAndFlag (x : Reg) (result flag : Nat) (s t : State) : Prop :=
  (t.getV x).toNat = (if x = VF ∧ s.cfg.vfOrder = .flagLast then flag else result) ∧
  (t.getV VF).toNat = (if x = VF ∧ s.cfg.vfOrder = .resultLast then result else flag)

/-! ### Words and faults -/

/-- `w` is the word of `i`, and decodes to it exactly in the decoding modes that admit it (R303, R330, R332). -/
def IsWordOf (w : Nat) (i : Instr) : Prop :=
  encode i = BitVec.ofNat 16 w ∧
  ∀ strict, decode strict (BitVec.ofNat 16 w) =
    if i.wf strict then .ok i else .error (.unknownInstruction (BitVec.ofNat 16 w))

/-- `s` with a fault record of the instruction `i` and nothing else changed (R603, R604). -/
def faulted (kind : FaultKind) (info : Nat) (i : Instr) (s : State) : State :=
  { s with fault := some ⟨kind, BitVec.ofNat 32 info, s.pc, some (encode i)⟩ }

/-- The address can be read (R203). -/
def Readable (a : Nat) : Prop := a < 4096

/-- The address can be written (R206). -/
def Writable (s : State) (a : Nat) : Prop := a < 4096 ∧ (s.cfg.glyphWritePolicy = .fault → 0x050 ≤ a)

/-- The fault of a write to an address that cannot be written (R206). -/
def writeFaultKind (a : Nat) : FaultKind := if 4096 ≤ a then .outOfBounds else .protectedWrite

/-- The depth test of a push fails (R422): `checked(depth)` with at least `depth` entries. -/
def StackFull (s : State) : Prop :=
  ∃ depth : Nat, s.cfg.stackCheck = .checked depth ∧
    (depth : Int) ≤ ((s.SP.toNat : Int) - (s.cfg.stackBase.toNat : Int)) / 2

/-- The empty-stack test of a pop fails (R423). -/
def StackEmpty (s : State) : Prop := (∃ depth, s.cfg.stackCheck = .checked depth) ∧ s.SP = s.cfg.stackBase

/-- A checked stack fits in ADDR_REG_WIDTH bits, so SP does not wrap within it. -/
def StackFits (c : Config) : Prop :=
  ∀ depth, c.stackCheck = .checked depth → c.stackBase.toNat + 2 * depth < 2 ^ c.addrRegWidth.val

/-- The registers an instruction writes (R102, R115). -/
def writesRegister (i : Instr) (r : Reg) : Bool :=
  match i with
  | .ldImm x _ | .addImm x _ | .rnd x _ => r == x
  | .ldReg x _ | .orReg x _ | .andReg x _ | .xorReg x _ => r == x
  | .addReg x _ | .subReg x _ | .shr x _ | .subnReg x _ | .shl x _ => r == x || r == VF
  | .drw _ _ _ => r == VF
  | .ldVxDt x | .ldVxKey x => r == x
  | .load x => decide (r.val ≤ x.val)
  | .cls _ | .ret _ | .jp _ | .call _ | .jpV0 _ => false
  | .seImm _ _ | .sneImm _ _ | .seReg _ _ _ | .sneReg _ _ _ | .skp _ | .sknp _ => false
  | .ldI _ | .addI _ | .ldF _ | .ldB _ | .store _ | .ldDtVx _ | .ldStVx _ => false

/-! ### Invariants -/

/-- Memory is in canonical form and lists only addresses of the address space (R200; log 9). -/
def MemoryForm (s : State) : Prop :=
  Memory.wf s.cfg.glyphTable s.Mem = true ∧ Memory.inSpace s.Mem = true

/-- pc is in the range R105 and R108 give. -/
def PcInRange (s : State) : Prop := s.pc.toNat ≤ 0x1003

/-- The parameters have values R9 allows, and I, pc and SP fit in ADDR_REG_WIDTH bits (R9, D4; log 20). -/
def AddressRegistersFit (s : State) : Prop :=
  s.cfg.wf = true ∧ s.I.toNat < 2 ^ s.cfg.addrRegWidth.val ∧ s.pc.toNat < 2 ^ s.cfg.addrRegWidth.val ∧
  s.SP.toNat < 2 ^ s.cfg.addrRegWidth.val

/-- After a load the glyph table holds GLYPH_TABLE when the policy protects it (R131, R206). -/
def GlyphsIntact (s : State) : Prop :=
  s.phase = .running → s.cfg.glyphWritePolicy = .fault → ∀ a : Fin 80, s.read a.val = s.cfg.glyphTable[a]

/-- While the machine waits, pc addresses an Fx0A (R523). -/
def WaitsAtKeyWait (s : State) : Prop := s.halted = true → ∃ x, fetch s = .ok (encode (.ldVxKey x))

/-- Under `checked(depth)` a running machine's SP is an even number of bytes, at most 2 * depth, above STACK_BASE
(R121, R422, R423). -/
def StackInBounds (s : State) : Prop :=
  s.phase = .running → StackFits s.cfg → ∀ depth, s.cfg.stackCheck = .checked depth →
    ∃ entries, entries ≤ depth ∧ s.SP.toNat = s.cfg.stackBase.toNat + 2 * entries

/-! ### The display -/

/-- The sprite bit of turn `k` of a draw that begins in `s`: row k / 8, column k % 8 (R404, R405). -/
def spriteBitAt (s : State) (k : Nat) : Bool :=
  match s.cfg.spriteBitOrder with
  | .msbFirst => (s.read (s.I.toNat + k / 8)).getLsbD (7 - k % 8)
  | .lsbFirst => (s.read (s.I.toNat + k / 8)).getLsbD (k % 8)

/-- The coordinate a draw that begins in `s` takes from register `r` while VF holds `vf`: under `live` the register as
it then is, under `latched` the register before the draw (R407). -/
def coordAt (s : State) (vf : Byte) (r : Reg) : Nat :=
  if r = VF ∧ s.cfg.drawOperandRead = .live then vf.toNat else (s.getV r).toNat

/-- The sprite at I has a 1 bit on pixel (px, py), drawn at (V[x], V[y]) with `n` rows (R404, R405). -/
def SpriteCovers (x y : Reg) (n : Nat) (s : State) (px : Fin 64) (py : Fin 32) : Prop :=
  ∃ row col, row < n ∧ col < 8 ∧ spriteBitAt s (8 * row + col) = true ∧
    px.val = ((s.getV x).toNat + col) % 64 ∧ py.val = ((s.getV y).toNat + row) % 32

/-! ### The end of a run (R723) -/

/-- The end of a run under the definition asked for (END_OF_RUN, D27; log 18). DESIGN CHOICE, log 23: R723's
definitions name pc, halted, the keys and the fault alone; the model also asks that the machine is running, so a machine
after the shutdown is at no end of a run by either definition, whatever its pc addresses and whether or not it waits. -/
def atEndOfRun (e : EndOfRun) (s : State) : Prop :=
  s.phase = .running ∧ s.fault = none ∧
  match e with
  | .selfJump => ∃ nnn, fetch s = .ok (encode (.jp nnn)) ∧ nnn.toNat = s.pc.toNat
  | .waiting => s.halted = true ∧ s.someKey = false

/-! ### Runs of the three agents -/

/-- The three agents (R633). -/
inductive Agent where
  | cpu
  | timer
  | host
  deriving DecidableEq, Repr

/-- Whose unit it is. -/
def AgentUnit.agent : AgentUnit → Agent
  | .cpu => .cpu
  | .timer => .timer
  | .host _ => .host

/-- The unit is enabled: R631 for the CPU, R620 for the timer, R604 and R643 to R645 for the host. -/
def unitEnabled (u : AgentUnit) (s : State) : Bool :=
  match u with
  | .cpu => cpuEnabled s
  | .timer => agentsMove s
  | .host op => decide ((hostCall op s).2 ≠ .refused)

/-- `st` is the run that takes the units `u 0`, `u 1`, ... one after another, each enabled where it is taken. -/
def IsRun (u : Nat → AgentUnit) (st : Nat → State) : Prop :=
  ∀ n, unitEnabled (u n) (st n) = true ∧ runUnit (u n) (st n) = .next (st (n + 1))

/-- Weak fairness: an agent that has an enabled unit from some point on takes units for ever (R216, R722). -/
def WeaklyFair (u : Nat → AgentUnit) (st : Nat → State) : Prop :=
  ∀ a : Agent, (∃ start, ∀ n, start ≤ n → ∃ v, AgentUnit.agent v = a ∧ unitEnabled v (st n) = true) →
    ∀ start, ∃ n, start ≤ n ∧ AgentUnit.agent (u n) = a

end Sys2Proof.Machine
end

