-- ==== Sys2Proof/Certificates/Slice0/Obligations.lean ====
section
/-! DEFINITION. The statements for the provers. Each docstring names the rules of spec/ it formalises; a clause
that rests on a choice of the model names its log entry. -/

open Sys2Proof Sys2Proof.Machine

/-! ### Encoding (30_encoding.md) -/

/-- Every well-formed instruction, in either decoding mode, is what its own word decodes to (R301, R303, R332;
the unused digits are kept, log 12). -/
def Obligations.DecodeOfEncodeIsInstruction : Prop :=
  ∀ (strict : Bool) (i : Instr), i.wf strict = true → decode strict (encode i) = .ok i

/-- Every word that decodes to an instruction is that instruction's word, and the instruction is well-formed. -/
def Obligations.EncodeOfDecodeIsWord : Prop :=
  ∀ (strict : Bool) (w : Word) (i : Instr), decode strict w = .ok i → encode i = w ∧ i.wf strict = true

/-- R330: the words that decode to UnknownInstruction, exactly. -/
def Obligations.UnknownWordsAreExactlyThese : Prop :=
  ∀ (strict : Bool) (w : Word),
    decode strict w = .error (.unknownInstruction w) ↔
      (let op := w.toNat / 4096
       let x := w.toNat / 256 % 16
       let n := w.toNat % 16
       let nn := w.toNat % 256
       (op = 0x0 ∧ nn ≠ 0xE0 ∧ nn ≠ 0xEE) ∨
       (op = 0x0 ∧ (nn = 0xE0 ∨ nn = 0xEE) ∧ x ≠ 0 ∧ strict = true) ∨
       ((op = 0x5 ∨ op = 0x9) ∧ n ≠ 0 ∧ strict = true) ∨
       (op = 0x8 ∧ n ∈ [0x8, 0x9, 0xA, 0xB, 0xC, 0xD, 0xF]) ∨
       (op = 0xE ∧ nn ≠ 0x9E ∧ nn ≠ 0xA1) ∨
       (op = 0xF ∧ nn ∉ [0x07, 0x0A, 0x15, 0x18, 0x1E, 0x29, 0x33, 0x55, 0x65]))

/-- R332: every word maps to exactly one instruction or to UnknownInstruction of itself. -/
def Obligations.DecoderIsTotal : Prop :=
  ∀ (strict : Bool) (w : Word),
    (∃ i, decode strict w = .ok i) ∨ decode strict w = .error (.unknownInstruction w)

/-- R301: op, x, y, n are the digits of the word, nnn is x then nn, and nn is y then n. -/
def Obligations.FieldsAreTheDigits : Prop :=
  ∀ w : Word,
    w.toNat = opField w * 4096 + (xField w).val * 256 + (yField w).val * 16 + (nField w).val ∧
    opField w < 16 ∧
    (nnnField w).toNat = (xField w).val * 256 + (nnField w).toNat ∧
    (nnField w).toNat = (yField w).val * 16 + (nField w).val

/-- Words written out from the rows of the opcode table decode to the instructions they stand for. -/
def Obligations.WrittenWordsDecode : Prop :=
  decode true 0b0000000011100000 = .ok (.cls 0) ∧
  decode true 0b0000000011101110 = .ok (.ret 0) ∧
  decode true 0b0010101111001101 = .ok (.call 0xBCD) ∧
  decode true 0b0011001001011010 = .ok (.seImm 2 0x5A) ∧
  decode true 0b1000000100100101 = .ok (.subReg 1 2) ∧
  decode true 0b1101000100100011 = .ok (.drw 1 2 3) ∧
  decode true 0b1110001110011110 = .ok (.skp 3) ∧
  decode true 0b1111010100001010 = .ok (.ldVxKey 5) ∧
  decode true 0b1111101001100101 = .ok (.load 10)

/-! ### The step (60_exceptions.md R600 to R632) -/

/-- R630: when it is the CPU agent's turn in a running machine with no fault, and the two bytes at pc decode to
`i`, the step is `i` executed (on the state with that unit taken off the agenda, log 7). -/
def Obligations.StepRunsDecodedInstruction : Prop :=
  ∀ (s : State) (i : Instr),
    nextUnit s = .cpu → s.phase = .running → s.fault = none → s.pc.toNat + 1 < 4096 →
    decode s.cfg.decodeStrict (BitVec.ofNat 16 ((s.read s.pc.toNat).toNat * 256 + (s.read (s.pc.toNat + 1)).toNat)) =
      .ok i →
    step s = exec i s.takeUnit

/-- R210, R330 and items 1 to 3 of R605: a fetch above 0xFFF raises OutOfBounds(pc), a fetch at 0xFFF raises
OutOfBounds(0x1000), both with no word recorded, and a fetched word with no handler raises UnknownInstruction; the
state is otherwise unchanged but for the unit taken off the agenda (log 7). -/
def Obligations.FetchAndDecodeFaults : Prop :=
  ∀ s : State, nextUnit s = .cpu → s.phase = .running → s.fault = none →
    (4096 ≤ s.pc.toNat →
      step s = .next { s.takeUnit with fault := some ⟨.outOfBounds, BitVec.ofNat 32 s.pc.toNat, s.pc, none⟩ }) ∧
    (s.pc.toNat = 0xFFF →
      step s = .next { s.takeUnit with fault := some ⟨.outOfBounds, 0x1000, s.pc, none⟩ }) ∧
    (∀ w : Word, s.pc.toNat + 1 < 4096 →
      w.toNat = (s.read s.pc.toNat).toNat * 256 + (s.read (s.pc.toNat + 1)).toNat →
      decode s.cfg.decodeStrict w = .error (.unknownInstruction w) →
      step s = .next
        { s.takeUnit with fault := some ⟨.unknownInstruction, BitVec.ofNat 32 w.toNat, s.pc, some w⟩ })

/-- R604: a fault is precise (a CPU step that records one changes nothing else but the agenda, log 7; R603: the
record holds the instruction's pc, and its word exactly when the fetch succeeded) and final (no CPU step, in any phase;
no tick; press, release and tick_timers refused; queries and load allowed). -/
def Obligations.FaultIsPreciseAndFinal : Prop :=
  (∀ s t : State, nextUnit s = .cpu → s.phase = .running → s.fault = none → step s = .next t → t.fault ≠ none →
    ∃ kind info, t = { s.takeUnit with
      fault := some ⟨kind, info, s.pc, if s.pc.toNat + 1 < 4096 then some (s.readWord s.pc.toNat) else none⟩ }) ∧
  (∀ (s : State) (r : FaultRecord), s.fault = some r → nextUnit s = .cpu → step s = .fault (.recorded r)) ∧
  (∀ (s : State) (r : FaultRecord), s.phase = .running → s.fault = some r →
    (∀ u, unitEnabled u s = true → AgentUnit.agent u = .host) ∧
    (∀ k, hostCall (.press k) s = (s, .refused) ∧ hostCall (.release k) s = (s, .refused)) ∧
    hostCall .tickTimers s = (s, .refused) ∧
    hostCall .isHalted s = (s, .flag s.halted) ∧
    (hostCall .displayChanged s).2 = .flag s.changed ∧
    (∀ layout, hostCall (.framebuffer layout) s = (s, .bytes (framebuffer layout s))) ∧
    hostCall .readFault s = (s, .record (some r)) ∧
    ∀ bytes, bytes.length ≤ 3584 → (hostCall (.load bytes) s).1.fault = none)

/-- R632: the host's `step()` is one CPU step and returns ok or the record; waiting with no key it changes
nothing; whenever a fault is set it returns the existing record and changes nothing, before a load (R702) too. -/
def Obligations.StepOperationReturnsOkOrRecord : Prop :=
  (∀ s t : State, cpuStep s = .next t →
    stepCall s = (t, match t.fault with | none => .done | some r => .record (some r))) ∧
  (∀ s : State, s.phase = .running → s.fault = none → s.halted = true → s.someKey = false → WaitsAtKeyWait s →
    stepCall s = (s, .done)) ∧
  (∀ (s : State) (r : FaultRecord), s.fault = some r → stepCall s = (s, .record (some r)))

/-! ### Invariants of every step -/

/-- Memory keeps its canonical form and lists only addresses below 4096 (R200; log 9). -/
def Obligations.StepKeepsMemoryForm : Prop :=
  ∀ s t : State, MemoryForm s → step s = .next t → MemoryForm t

/-- R108: pc stays at or below 0x1003. -/
def Obligations.StepKeepsPcInRange : Prop :=
  ∀ s t : State, PcInRange s → step s = .next t → PcInRange t

/-- R206 with the policy `fault`: no step changes a byte of the glyph table of a running machine. -/
def Obligations.StepKeepsGlyphTable : Prop :=
  ∀ s t : State, GlyphsIntact s → step s = .next t → GlyphsIntact t

/-- R523: while the machine waits, pc addresses an Fx0A. -/
def Obligations.StepKeepsKeyWaitAtPc : Prop :=
  ∀ s t : State, WaitsAtKeyWait s → step s = .next t → WaitsAtKeyWait t

/-- R121, R422, R423: under `checked(depth)` the stack never holds more than `depth` entries nor less than none. -/
def Obligations.StepKeepsStackInBounds : Prop :=
  ∀ s t : State, StackInBounds s → step s = .next t → StackInBounds t

/-- The state after reset meets every invariant that a statement here says each step keeps. -/
def Obligations.ResetMeetsInvariants : Prop :=
  MemoryForm State.reset ∧ PcInRange State.reset ∧ GlyphsIntact State.reset ∧ WaitsAtKeyWait State.reset ∧
  StackInBounds State.reset ∧ AddressRegistersFit State.reset

/-! ### Whole-machine rules -/

/-- R102, R120 to R125, R127, R635: which instructions can change which state. A completed or faulting
instruction changes nothing of these otherwise. -/
def Obligations.InstructionsWriteOnlyTheirState : Prop :=
  ∀ (i : Instr) (s t : State), exec i s = .next t →
    (∀ r, t.getV r ≠ s.getV r → writesRegister i r = true) ∧
    (t.I ≠ s.I → (∃ nnn, i = .ldI nnn) ∨ (∃ x, i = .addI x) ∨ ∃ x, i = .ldF x) ∧
    (t.SP ≠ s.SP → (∃ nnn, i = .call nnn) ∨ ∃ d, i = .ret d) ∧
    (t.DT ≠ s.DT → ∃ x, i = .ldDtVx x) ∧
    (t.ST ≠ s.ST → ∃ x, i = .ldStVx x) ∧
    (t.halted ≠ s.halted → ∃ x, i = .ldVxKey x) ∧
    (t.changed ≠ s.changed → (∃ d, i = .cls d) ∨ ∃ x y n, i = .drw x y n) ∧
    (∀ px py, t.pixel px py ≠ s.pixel px py → (∃ d, i = .cls d) ∨ ∃ x y n, i = .drw x y n) ∧
    (∀ a, t.read a ≠ s.read a → (∃ nnn, i = .call nnn) ∨ (∃ x, i = .ldB x) ∨ ∃ x, i = .store x) ∧
    (∀ k, t.getKey k = s.getKey k) ∧
    t.cfg = s.cfg ∧ t.phase = s.phase ∧ t.agenda = s.agenda

/-- R122, R124, R127: no instruction and no other unit reads ST or the changed flag into any other state: two
states that differ in these alone step to states that differ in these alone, or stop alike. -/
def Obligations.SoundTimerAndChangedFlagAreUnread : Prop :=
  ∀ (s : State) (v : Byte) (b : Bool),
    (∀ t, step s = .next t →
      ∃ v' b', step { s with ST := v, changed := b } = .next { t with ST := v', changed := b' }) ∧
    ∀ f, step s = .fault f → step { s with ST := v, changed := b } = .fault f

/-- R635: a unit of the timer agent, or of the host agent other than load, leaves every byte of memory, every
register, I, pc, SP and the display as they were. -/
def Obligations.OnlyCpuAndLoadWriteMemory : Prop :=
  ∀ (u : AgentUnit) (s t : State), runUnit u s = .next t → u ≠ .cpu → (∀ bytes, u ≠ .host (.load bytes)) →
    SameBut [] [.DT, .ST, .Key, .changed, .phase] s t

/-! ### Register loads and arithmetic (43_alu.md) -/

/-- R460: 6xnn loads nn into V[x]; pc + 2; nothing else changes. -/
def Obligations.LoadImmediate : Prop :=
  ∀ (x : Reg) (nn : Byte) (s : State),
    IsWordOf (0x6000 + 256 * x.val + nn.toNat) (.ldImm x nn) ∧
    ∃ t, exec (.ldImm x nn) s = .next t ∧ t.getV x = nn ∧ t.pc = s.pc + 2 ∧ SameBut [x] [.pc] s t

/-- R462: 7xnn adds nn to V[x] mod 256 with no flag; pc + 2; nothing else changes. -/
def Obligations.AddImmediate : Prop :=
  ∀ (x : Reg) (nn : Byte) (s : State),
    IsWordOf (0x7000 + 256 * x.val + nn.toNat) (.addImm x nn) ∧
    ∃ t, exec (.addImm x nn) s = .next t ∧ (t.getV x).toNat = ((s.getV x).toNat + nn.toNat) % 256 ∧
      t.pc = s.pc + 2 ∧ SameBut [x] [.pc] s t

/-- R463: 8xy0 copies V[y] into V[x]; pc + 2; nothing else changes. -/
def Obligations.CopyRegister : Prop :=
  ∀ (x y : Reg) (s : State),
    IsWordOf (0x8000 + 256 * x.val + 16 * y.val) (.ldReg x y) ∧
    ∃ t, exec (.ldReg x y) s = .next t ∧ t.getV x = s.getV y ∧ t.pc = s.pc + 2 ∧ SameBut [x] [.pc] s t

/-- R464, R465, R466: 8xy1, 8xy2 and 8xy3 are the bitwise OR, AND and XOR of V[x] and V[y], bit by bit, with no
flag; pc + 2; nothing else changes. -/
def Obligations.BitwiseOperations : Prop :=
  ∀ (x y : Reg) (s : State),
    (IsWordOf (0x8001 + 256 * x.val + 16 * y.val) (.orReg x y) ∧
      ∃ t, exec (.orReg x y) s = .next t ∧
        (∀ k, k < 8 → (t.getV x).getLsbD k = ((s.getV x).getLsbD k || (s.getV y).getLsbD k)) ∧
        t.pc = s.pc + 2 ∧ SameBut [x] [.pc] s t) ∧
    (IsWordOf (0x8002 + 256 * x.val + 16 * y.val) (.andReg x y) ∧
      ∃ t, exec (.andReg x y) s = .next t ∧
        (∀ k, k < 8 → (t.getV x).getLsbD k = ((s.getV x).getLsbD k && (s.getV y).getLsbD k)) ∧
        t.pc = s.pc + 2 ∧ SameBut [x] [.pc] s t) ∧
    (IsWordOf (0x8003 + 256 * x.val + 16 * y.val) (.xorReg x y) ∧
      ∃ t, exec (.xorReg x y) s = .next t ∧
        (∀ k, k < 8 → (t.getV x).getLsbD k = ((s.getV x).getLsbD k ^^ (s.getV y).getLsbD k)) ∧
        t.pc = s.pc + 2 ∧ SameBut [x] [.pc] s t)

/-- R467 with R461: 8xy4 writes the sum mod 256 to V[x] and the carry to VF, in either VF_ORDER; pc + 2; nothing
else changes. -/
def Obligations.AddWithCarry : Prop :=
  ∀ (x y : Reg) (s : State),
    IsWordOf (0x8004 + 256 * x.val + 16 * y.val) (.addReg x y) ∧
    ∃ t, exec (.addReg x y) s = .next t ∧
      ResultAndFlag x (((s.getV x).toNat + (s.getV y).toNat) % 256)
        (if (s.getV x).toNat + (s.getV y).toNat > 255 then 1 else 0) s t ∧
      t.pc = s.pc + 2 ∧ SameBut [x, VF] [.pc] s t

/-- R468 and R470 with R461: 8xy5 and 8xy7 write V[x] - V[y] and V[y] - V[x] mod 256 to V[x] and NOT borrow to VF,
in either VF_ORDER; pc + 2; nothing else changes. -/
def Obligations.SubtractWithNotBorrow : Prop :=
  ∀ (x y : Reg) (s : State),
    (IsWordOf (0x8005 + 256 * x.val + 16 * y.val) (.subReg x y) ∧
      ∃ t, exec (.subReg x y) s = .next t ∧
        ResultAndFlag x (((s.getV x).toNat + 256 - (s.getV y).toNat) % 256)
          (if (s.getV y).toNat > (s.getV x).toNat then 0 else 1) s t ∧
        t.pc = s.pc + 2 ∧ SameBut [x, VF] [.pc] s t) ∧
    (IsWordOf (0x8007 + 256 * x.val + 16 * y.val) (.subnReg x y) ∧
      ∃ t, exec (.subnReg x y) s = .next t ∧
        ResultAndFlag x (((s.getV y).toNat + 256 - (s.getV x).toNat) % 256)
          (if (s.getV x).toNat > (s.getV y).toNat then 0 else 1) s t ∧
        t.pc = s.pc + 2 ∧ SameBut [x, VF] [.pc] s t)

/-- R469 and R471 with R461: 8xy6 and 8xyE shift V[x] right and left by one bit and write the bit shifted out to
VF, in either VF_ORDER, whatever y is; pc + 2; nothing else changes. -/
def Obligations.ShiftByOne : Prop :=
  ∀ (x : Reg) (y : Nibble) (s : State),
    (IsWordOf (0x8006 + 256 * x.val + 16 * y.val) (.shr x y) ∧
      ∃ t, exec (.shr x y) s = .next t ∧
        ResultAndFlag x ((s.getV x).toNat / 2) ((s.getV x).toNat % 2) s t ∧
        t.pc = s.pc + 2 ∧ SameBut [x, VF] [.pc] s t) ∧
    (IsWordOf (0x800E + 256 * x.val + 16 * y.val) (.shl x y) ∧
      ∃ t, exec (.shl x y) s = .next t ∧
        ResultAndFlag x ((s.getV x).toNat * 2 % 256) ((s.getV x).toNat / 128) s t ∧
        t.pc = s.pc + 2 ∧ SameBut [x, VF] [.pc] s t)

/-- R472: Cxnn sets V[x] to the draw AND nn, for every draw; pc + 2; nothing else of the spec's state changes. The
draw is the model's free value (log 8): the byte Config.randomByte gives this execution, of which nothing is known. -/
def Obligations.RandomByteMasked : Prop :=
  ∀ (x : Reg) (nn : Byte) (s : State),
    IsWordOf (0xC000 + 256 * x.val + nn.toNat) (.rnd x nn) ∧
    (∃ t, exec (.rnd x nn) s = .next t ∧ t.getV x = Config.randomByte s.draws &&& nn ∧ t.draws = s.draws + 1 ∧
      t.pc = s.pc + 2 ∧ SameBut [x] [.pc, .draws] s t) ∧
    ∀ draw : Byte, ∀ k, k < 8 →
      ((rndWithDraw draw x nn s).getV x).getLsbD k = (draw.getLsbD k && nn.getLsbD k)

/-! ### Skips (42_skips.md) -/

/-- R440, R441, R442, R443 with R446: 3xnn, 4xnn, 5xy0 and 9xy0 add 4 to pc when their condition holds and 2
otherwise, and change nothing else. -/
def Obligations.CompareSkips : Prop :=
  ∀ (x y : Reg) (nn : Byte) (d : Nibble) (s : State),
    (IsWordOf (0x3000 + 256 * x.val + nn.toNat) (.seImm x nn) ∧
      ∃ t, exec (.seImm x nn) s = .next t ∧ t.pc = s.pc + (if s.getV x = nn then 4 else 2) ∧
        SameBut [] [.pc] s t) ∧
    (IsWordOf (0x4000 + 256 * x.val + nn.toNat) (.sneImm x nn) ∧
      ∃ t, exec (.sneImm x nn) s = .next t ∧ t.pc = s.pc + (if s.getV x ≠ nn then 4 else 2) ∧
        SameBut [] [.pc] s t) ∧
    (IsWordOf (0x5000 + 256 * x.val + 16 * y.val + d.val) (.seReg x y d) ∧
      ∃ t, exec (.seReg x y d) s = .next t ∧ t.pc = s.pc + (if s.getV x = s.getV y then 4 else 2) ∧
        SameBut [] [.pc] s t) ∧
    (IsWordOf (0x9000 + 256 * x.val + 16 * y.val + d.val) (.sneReg x y d) ∧
      ∃ t, exec (.sneReg x y d) s = .next t ∧ t.pc = s.pc + (if s.getV x ≠ s.getV y then 4 else 2) ∧
        SameBut [] [.pc] s t)

/-- R444, R445, R447: Ex9E skips when the key V[x] names is pressed and ExA1 when it is not, and nothing but pc
changes; with V[x] above 15 both raise InvalidKey(V[x]) and change nothing. -/
def Obligations.KeySkips : Prop :=
  ∀ (x : Reg) (s : State),
    IsWordOf (0xE09E + 256 * x.val) (.skp x) ∧ IsWordOf (0xE0A1 + 256 * x.val) (.sknp x) ∧
    (∀ k : Fin 16, (s.getV x).toNat = k.val →
      (∃ t, exec (.skp x) s = .next t ∧ t.pc = s.pc + (if s.getKey k = true then 4 else 2) ∧ SameBut [] [.pc] s t) ∧
      (∃ t, exec (.sknp x) s = .next t ∧ t.pc = s.pc + (if s.getKey k = true then 2 else 4) ∧
        SameBut [] [.pc] s t)) ∧
    (15 < (s.getV x).toNat →
      exec (.skp x) s = .next (faulted .invalidKey (s.getV x).toNat (.skp x) s) ∧
      exec (.sknp x) s = .next (faulted .invalidKey (s.getV x).toNat (.sknp x) s))

/-! ### Control transfer (41_control_flow.md) -/

/-- R420: 1nnn sets pc to nnn; nothing else changes. -/
def Obligations.JumpSetsPc : Prop :=
  ∀ (nnn : BitVec 12) (s : State),
    IsWordOf (0x1000 + nnn.toNat) (.jp nnn) ∧
    ∃ t, exec (.jp nnn) s = .next t ∧ t.pc.toNat = nnn.toNat ∧ SameBut [] [.pc] s t

/-- R421, R422: 2nnn stores its own address big-endian at SP + 2 mod 65536 (ADDR_REG_WIDTH being 16; log 20 for other
widths), moves SP there and sets pc to nnn; or it raises the first of StackOverflow and the faults of the two entry addresses, and changes nothing. -/
def Obligations.CallPushesItsAddress : Prop :=
  ∀ (nnn : BitVec 12) (s : State), Memory.wf s.cfg.glyphTable s.Mem = true →
    IsWordOf (0x2000 + nnn.toNat) (.call nnn) ∧
    (s.cfg.addrRegWidth = 16 → (pushAddr s).toNat = (s.SP.toNat + 2) % 65536) ∧
    (¬StackFull s → Writable s (pushAddr s).toNat → Writable s ((pushAddr s).toNat + 1) →
      ∃ t, exec (.call nnn) s = .next t ∧
        (t.read (pushAddr s).toNat).toNat = s.pc.toNat / 256 ∧
        (t.read ((pushAddr s).toNat + 1)).toNat = s.pc.toNat % 256 ∧
        t.SP = pushAddr s ∧ t.pc.toNat = nnn.toNat ∧
        MemSameOutside (pushAddr s).toNat 2 s t ∧ SameBut [] [.pc, .SP, .Mem] s t) ∧
    (StackFull s → exec (.call nnn) s = .next (faulted .stackOverflow s.SP.toNat (.call nnn) s)) ∧
    (¬StackFull s → ¬Writable s (pushAddr s).toNat →
      exec (.call nnn) s =
        .next (faulted (writeFaultKind (pushAddr s).toNat) (pushAddr s).toNat (.call nnn) s)) ∧
    (¬StackFull s → Writable s (pushAddr s).toNat → ¬Writable s ((pushAddr s).toNat + 1) →
      exec (.call nnn) s =
        .next (faulted (writeFaultKind ((pushAddr s).toNat + 1)) ((pushAddr s).toNat + 1) (.call nnn) s))

/-- R423, R424, R428: 00EE sets pc to the big-endian word at SP plus 2 and SP to SP - 2 mod 65536 (ADDR_REG_WIDTH being
16; log 20 for other widths), leaving the entry's bytes; or it raises the first of StackUnderflow, OutOfBounds of SP or SP + 1, and OutOfBounds of the target,
and changes nothing. -/
def Obligations.ReturnPopsAndAddsTwo : Prop :=
  ∀ (d : Nibble) (s : State),
    IsWordOf (0x00EE + 256 * d.val) (.ret d) ∧
    (∀ target, target = (s.read s.SP.toNat).toNat * 256 + (s.read (s.SP.toNat + 1)).toNat + 2 →
      (¬StackEmpty s → s.SP.toNat + 1 < 4096 → target < 4096 →
        ∃ t, exec (.ret d) s = .next t ∧ t.pc.toNat = target ∧
          (s.cfg.addrRegWidth = 16 → t.SP.toNat = (s.SP.toNat + 65534) % 65536) ∧
          SameBut [] [.pc, .SP] s t) ∧
      (¬StackEmpty s → s.SP.toNat + 1 < 4096 → 4096 ≤ target →
        exec (.ret d) s = .next (faulted .outOfBounds target (.ret d) s))) ∧
    (StackEmpty s → exec (.ret d) s = .next (faulted .stackUnderflow s.SP.toNat (.ret d) s)) ∧
    (¬StackEmpty s → 4096 ≤ s.SP.toNat →
      exec (.ret d) s = .next (faulted .outOfBounds s.SP.toNat (.ret d) s)) ∧
    (¬StackEmpty s → s.SP.toNat = 4095 → exec (.ret d) s = .next (faulted .outOfBounds 4096 (.ret d) s))

/-- R427, R428: Bnnn sets pc to V[0] + nnn below 4096, and raises OutOfBounds of the target otherwise. -/
def Obligations.IndexedJump : Prop :=
  ∀ (nnn : BitVec 12) (s : State),
    IsWordOf (0xB000 + nnn.toNat) (.jpV0 nnn) ∧
    ((s.getV 0).toNat + nnn.toNat < 4096 →
      ∃ t, exec (.jpV0 nnn) s = .next t ∧ t.pc.toNat = (s.getV 0).toNat + nnn.toNat ∧ SameBut [] [.pc] s t) ∧
    (4096 ≤ (s.getV 0).toNat + nnn.toNat →
      exec (.jpV0 nnn) s = .next (faulted .outOfBounds ((s.getV 0).toNat + nnn.toNat) (.jpV0 nnn) s))

/-- R425: a 2nnn whose push succeeds, then the 00EE at nnn, leaves pc at A + 2 and SP as before the call. -/
def Obligations.CallThenReturnRestores : Prop :=
  ∀ (nnn : BitVec 12) (s : State),
    MemoryForm s → AddressRegistersFit s → StackInBounds s → StackFits s.cfg → s.agenda = [] → s.phase = .running → s.fault = none →
    fetch s = .ok (encode (.call nnn)) → ¬StackFull s →
    Writable s (pushAddr s).toNat → Writable s ((pushAddr s).toNat + 1) → s.pc.toNat + 2 < 4096 →
    ∃ t, step s = .next t ∧
      (fetch t = .ok 0x00EE →
        ∃ u, step t = .next u ∧ u.pc.toNat = s.pc.toNat + 2 ∧ u.SP = s.SP ∧ SameBut [] [.pc, .Mem] s u)

/-! ### The index register and memory (44_index_memory.md) -/

/-- R490, R492, R494: Annn, Fx1E and Fx29 set I to nnn, to I + V[x] mod 65536 (ADDR_REG_WIDTH being 16; log 20 for
other widths) and to 5 times the digit (masked to 4 bits under FX29_MASK); pc + 2; nothing else changes. -/
def Obligations.IndexRegisterWrites : Prop :=
  ∀ (nnn : BitVec 12) (x : Reg) (s : State),
    (IsWordOf (0xA000 + nnn.toNat) (.ldI nnn) ∧
      ∃ t, exec (.ldI nnn) s = .next t ∧ t.I.toNat = nnn.toNat ∧ t.pc = s.pc + 2 ∧ SameBut [] [.I, .pc] s t) ∧
    (IsWordOf (0xF01E + 256 * x.val) (.addI x) ∧
      ∃ t, exec (.addI x) s = .next t ∧
        (s.cfg.addrRegWidth = 16 → t.I.toNat = (s.I.toNat + (s.getV x).toNat) % 65536) ∧ t.pc = s.pc + 2 ∧
        SameBut [] [.I, .pc] s t) ∧
    (IsWordOf (0xF029 + 256 * x.val) (.ldF x) ∧
      ∃ t, exec (.ldF x) s = .next t ∧
        t.I.toNat = 5 * (if s.cfg.fx29Mask = true then (s.getV x).toNat % 16 else (s.getV x).toNat) ∧
        t.pc = s.pc + 2 ∧ SameBut [] [.I, .pc] s t)

/-- R496: Fx33 stores the hundreds, tens and ones digits of V[x] at I, I+1 and I+2 and changes no other byte; or it
raises the fault of the lowest address that cannot be written, and writes nothing. -/
def Obligations.DecimalDigitsStored : Prop :=
  ∀ (x : Reg) (s : State), Memory.wf s.cfg.glyphTable s.Mem = true →
    IsWordOf (0xF033 + 256 * x.val) (.ldB x) ∧
    ((∀ k, k < 3 → Writable s (indexAddr s k)) →
      ∃ t, exec (.ldB x) s = .next t ∧
        (t.read (indexAddr s 0)).toNat = (s.getV x).toNat / 100 ∧
        (t.read (indexAddr s 1)).toNat = (s.getV x).toNat / 10 % 10 ∧
        (t.read (indexAddr s 2)).toNat = (s.getV x).toNat % 10 ∧
        t.pc = s.pc + 2 ∧ MemSameOutside (indexAddr s 0) 3 s t ∧ SameBut [] [.pc, .Mem] s t) ∧
    (∀ k, k < 3 → (∀ j, j < k → Writable s (indexAddr s j)) → ¬Writable s (indexAddr s k) →
      exec (.ldB x) s = .next (faulted (writeFaultKind (indexAddr s k)) (indexAddr s k) (.ldB x) s))

/-- R498: Fx55 stores V[0] to V[x] at I to I+x, changes no other byte and leaves I; or it raises the fault of the
lowest address that cannot be written, and writes nothing. -/
def Obligations.RegistersStored : Prop :=
  ∀ (x : Reg) (s : State), Memory.wf s.cfg.glyphTable s.Mem = true →
    IsWordOf (0xF055 + 256 * x.val) (.store x) ∧
    ((∀ k, k ≤ x.val → Writable s (indexAddr s k)) →
      ∃ t, exec (.store x) s = .next t ∧
        (∀ r : Reg, r.val ≤ x.val → t.read (indexAddr s r.val) = s.getV r) ∧
        t.pc = s.pc + 2 ∧ MemSameOutside (indexAddr s 0) (x.val + 1) s t ∧ SameBut [] [.pc, .Mem] s t) ∧
    (∀ k, k ≤ x.val → (∀ j, j < k → Writable s (indexAddr s j)) → ¬Writable s (indexAddr s k) →
      exec (.store x) s = .next (faulted (writeFaultKind (indexAddr s k)) (indexAddr s k) (.store x) s))

/-- R500: Fx65 loads V[0] to V[x] from I to I+x and leaves I, the other registers and memory; or it raises
OutOfBounds of the lowest address above 0xFFF, and loads nothing. -/
def Obligations.RegistersLoaded : Prop :=
  ∀ (x : Reg) (s : State),
    IsWordOf (0xF065 + 256 * x.val) (.load x) ∧
    ((∀ k, k ≤ x.val → Readable (indexAddr s k)) →
      ∃ t, exec (.load x) s = .next t ∧
        (∀ r : Reg, t.getV r = if r.val ≤ x.val then s.read (indexAddr s r.val) else s.getV r) ∧
        t.pc = s.pc + 2 ∧ SameBut (List.finRange 16) [.pc] s t) ∧
    (∀ k, k ≤ x.val → (∀ j, j < k → Readable (indexAddr s j)) → ¬Readable (indexAddr s k) →
      exec (.load x) s = .next (faulted .outOfBounds (indexAddr s k) (.load x) s))

/-- R498, R500: registers stored with Fx55 and then loaded with Fx65 at the same I come back, whatever the registers
held in between. -/
def Obligations.StoreThenLoadRestores : Prop :=
  ∀ (x : Reg) (s : State) (other : Vector Byte 16),
    Memory.wf s.cfg.glyphTable s.Mem = true → (∀ k, k ≤ x.val → Writable s (indexAddr s k)) →
    ∃ t u, exec (.store x) s = .next t ∧ exec (.load x) { t with V := other } = .next u ∧
      ∀ r : Reg, r.val ≤ x.val → u.getV r = s.getV r

/-! ### Timers and the key wait (45_timers_keywait.md, 60_exceptions.md) -/

/-- R520, R525, R526: Fx07 reads DT into V[x]; Fx15 and Fx18 write V[x] to DT and to ST; pc + 2; nothing else
changes. -/
def Obligations.TimerAccess : Prop :=
  ∀ (x : Reg) (s : State),
    (IsWordOf (0xF007 + 256 * x.val) (.ldVxDt x) ∧
      ∃ t, exec (.ldVxDt x) s = .next t ∧ t.getV x = s.DT ∧ t.pc = s.pc + 2 ∧ SameBut [x] [.pc] s t) ∧
    (IsWordOf (0xF015 + 256 * x.val) (.ldDtVx x) ∧
      ∃ t, exec (.ldDtVx x) s = .next t ∧ t.DT = s.getV x ∧ t.pc = s.pc + 2 ∧ SameBut [] [.DT, .pc] s t) ∧
    (IsWordOf (0xF018 + 256 * x.val) (.ldStVx x) ∧
      ∃ t, exec (.ldStVx x) s = .next t ∧ t.ST = s.getV x ∧ t.pc = s.pc + 2 ∧ SameBut [] [.ST, .pc] s t)

/-- R522: Fx0A with a key pressed stores the lowest pressed key's number in V[x], clears halted and advances pc by 2;
with no key pressed it sets halted and changes nothing else. -/
def Obligations.KeyWaitCapturesLowestKey : Prop :=
  ∀ (x : Reg) (s : State),
    IsWordOf (0xF00A + 256 * x.val) (.ldVxKey x) ∧
    (∀ k : Fin 16, s.getKey k = true → (∀ j : Fin 16, j < k → s.getKey j = false) →
      ∃ t, exec (.ldVxKey x) s = .next t ∧ (t.getV x).toNat = k.val ∧ t.halted = false ∧ t.pc = s.pc + 2 ∧
        SameBut [x] [.halted, .pc] s t) ∧
    ((∀ k, s.getKey k = false) →
      ∃ t, exec (.ldVxKey x) s = .next t ∧ t.halted = true ∧ SameBut [] [.halted] s t)

/-- R620: a tick of a running machine with no fault takes each timer that is above zero down by one, halted or not,
and changes nothing else. -/
def Obligations.TickDecrementsBothTimers : Prop :=
  ∀ s : State, s.phase = .running → s.fault = none →
    unitEnabled .timer s = true ∧
    ∃ t, runUnit .timer s = .next t ∧ t.DT.toNat = s.DT.toNat - 1 ∧ t.ST.toNat = s.ST.toNat - 1 ∧
      SameBut [] [.DT, .ST] s t

/-- R714: any number of ticks may fall before the next instruction: after `k` scheduled ticks each timer has fallen by
`k` or stands at 0, and nothing else but the agenda has changed (the agenda is the model's own, log 7). -/
def Obligations.ScheduledTicksCountDown : Prop :=
  ∀ (k : Nat) (s : State) (rest : List AgentUnit),
    s.phase = .running → s.fault = none → s.agenda = List.replicate k .timer ++ rest →
    ∃ t, core.run k s = .next t ∧ t.DT.toNat = s.DT.toNat - k ∧ t.ST.toNat = s.ST.toNat - k ∧ t.agenda = rest ∧
      SameBut [] [.DT, .ST, .agenda] s t

/-- R631: the CPU agent of a running machine is enabled exactly when no fault is recorded and it does not wait or some
key is pressed; a press, or a load, lifts the hold. -/
def Obligations.HoldAndItsLifting : Prop :=
  ∀ s : State, s.phase = .running →
    (unitEnabled .cpu s = true ↔ s.fault = none ∧ (s.halted = false ∨ ∃ k, s.getKey k = true)) ∧
    (∀ k, k < 16 → s.fault = none → unitEnabled .cpu (hostCall (.press k) s).1 = true) ∧
    ∀ bytes, bytes.length ≤ 3584 → unitEnabled .cpu (hostCall (.load bytes) s).1 = true

/-- R722 with R216 and R620: in a weakly fair run of a machine that keeps running without a fault and in which DT never
rises, DT reaches 0. -/
def Obligations.FairRunReachesZeroDelay : Prop :=
  ∀ (u : Nat → AgentUnit) (st : Nat → State), IsRun u st → WeaklyFair u st →
    (∀ n, (st n).phase = .running ∧ (st n).fault = none) →
    (∀ n, (st (n + 1)).DT.toNat ≤ (st n).DT.toNat) →
    ∃ n, (st n).DT = 0

/-! ### The display (40_display.md) -/

/-- R400: 00E0 clears every pixel, sets changed and advances pc by 2; nothing else changes. -/
def Obligations.ClearDisplay : Prop :=
  ∀ (d : Nibble) (s : State),
    IsWordOf (0x00E0 + 256 * d.val) (.cls d) ∧
    ∃ t, exec (.cls d) s = .next t ∧ (∀ px py, t.pixel px py = false) ∧ t.changed = true ∧ t.pc = s.pc + 2 ∧
      SameBut [] [.Pix, .changed, .pc] s t

/-- R404, R405, R406, R407, every form of Dxyn, VF among its coordinates too: the pixels and VF are those of the
rule's loop, whose `k`-th turn (row k / 8, column k % 8) starts with the flag `vf k` and the display `pix k`; with a
sprite address above 0xFFF it raises OutOfBounds of the lowest such address and changes nothing. -/
def Obligations.DrawFollowsTheLoop : Prop :=
  ∀ (x y : Reg) (n : Nibble) (s : State),
    IsWordOf (0xD000 + 256 * x.val + 16 * y.val + n.val) (.drw x y n) ∧
    ((∀ row, row < n.val → Readable (indexAddr s row)) →
      ∃ t, exec (.drw x y n) s = .next t ∧ t.changed = true ∧ t.pc = s.pc + 2 ∧
        SameBut [VF] [.Pix, .changed, .pc] s t ∧
        ∃ (vf : Nat → Byte) (pix : Nat → Fin 64 → Fin 32 → Bool),
          vf 0 = 0 ∧ (∀ px py, pix 0 px py = s.pixel px py) ∧
          (∀ (k : Nat) (bit : Bool) (px : Fin 64) (py : Fin 32), k < 8 * n.val →
            bit = spriteBitAt s k → px.val = (coordAt s (vf k) x + k % 8) % 64 →
            py.val = (coordAt s (vf k) y + k / 8) % 32 →
            vf (k + 1) = (if bit = true ∧ pix k px py = true then 1 else vf k) ∧
            ∀ qx qy, pix (k + 1) qx qy = if qx = px ∧ qy = py then pix k qx qy ^^ bit else pix k qx qy) ∧
          t.getV VF = vf (8 * n.val) ∧ ∀ px py, t.pixel px py = pix (8 * n.val) px py) ∧
    (∀ row, row < n.val → (∀ j, j < row → Readable (indexAddr s j)) → ¬Readable (indexAddr s row) →
      exec (.drw x y n) s = .next (faulted .outOfBounds (indexAddr s row) (.drw x y n) s))

/-- R404: where the coordinates do not move during the draw, Dxyn flips exactly the pixels the sprite covers, and VF is
1 exactly when it covers a set pixel, else 0. -/
def Obligations.DrawFlipsCoveredPixels : Prop :=
  ∀ (x y : Reg) (n : Nibble) (s : State), (∀ row, row < n.val → Readable (indexAddr s row)) →
    (s.cfg.drawOperandRead = .latched ∨ (x ≠ VF ∧ y ≠ VF)) →
    ∃ t, exec (.drw x y n) s = .next t ∧
      (∀ px py, SpriteCovers x y n.val s px py → t.pixel px py = !s.pixel px py) ∧
      (∀ px py, ¬SpriteCovers x y n.val s px py → t.pixel px py = s.pixel px py) ∧
      ((∃ px py, SpriteCovers x y n.val s px py ∧ s.pixel px py = true) → t.getV VF = 1) ∧
      ((∀ px py, SpriteCovers x y n.val s px py → s.pixel px py = false) → t.getV VF = 0)

/-- R408: drawing the same sprite at the same place twice restores the display, and VF is then 1 exactly when the
sprite covers a pixel that was 0 before the first draw, else 0. The clause about VF is an inference that R408 itself
marks [derived: from rules R404 and R407]. -/
def Obligations.DrawTwiceRestoresDisplay : Prop :=
  ∀ (x y : Reg) (n : Nibble) (s : State), x ≠ VF → y ≠ VF → (∀ row, row < n.val → Readable (indexAddr s row)) →
    ∃ t u, exec (.drw x y n) s = .next t ∧ exec (.drw x y n) t = .next u ∧
      (∀ px py, u.pixel px py = s.pixel px py) ∧
      ((∃ px py, SpriteCovers x y n.val s px py ∧ s.pixel px py = false) → u.getV VF = 1) ∧
      ((∀ px py, SpriteCovers x y n.val s px py → s.pixel px py = true) → u.getV VF = 0)

/-! ### The host interface (60_exceptions.md, 70_reset_and_hazards.md) -/

/-- R643, R644: press(k) and release(k) set Key[k] to true and to false for k from 0 to 15 and change nothing else,
and a press lets a held CPU agent step; any other k, and every call after a fault, is refused and changes nothing. -/
def Obligations.PressAndReleaseSetOneKey : Prop :=
  ∀ (k : Nat) (s : State), s.phase = .running →
    (∀ h : k < 16, s.fault = none →
      (∃ t, hostCall (.press k) s = (t, .done) ∧ t.getKey ⟨k, h⟩ = true ∧ unitEnabled .cpu t = true ∧
        (∀ j : Fin 16, j.val ≠ k → t.getKey j = s.getKey j) ∧ SameBut [] [.Key] s t) ∧
      (∃ t, hostCall (.release k) s = (t, .done) ∧ t.getKey ⟨k, h⟩ = false ∧
        (∀ j : Fin 16, j.val ≠ k → t.getKey j = s.getKey j) ∧ SameBut [] [.Key] s t)) ∧
    (16 ≤ k ∨ s.fault ≠ none → hostCall (.press k) s = (s, .refused) ∧ hostCall (.release k) s = (s, .refused))

/-- R642: display_changed() returns the flag and clears it, so a second call with nothing between returns false. -/
def Obligations.DisplayChangedReadsAndClears : Prop :=
  ∀ s : State, s.phase ≠ .ended →
    ∃ t, hostCall .displayChanged s = (t, .flag s.changed) ∧ t.changed = false ∧ SameBut [] [.changed] s t ∧
      hostCall .displayChanged t = (t, .flag false)

/-- R640: framebuffer() changes nothing and returns every pixel at its place in each of the two layouts. -/
def Obligations.FramebufferLayouts : Prop :=
  ∀ s : State,
    (framebuffer .packed256 s).length = 256 ∧
    (∀ (px : Fin 64) (py : Fin 32),
      ∃ b, (framebuffer .packed256 s)[py.val * 8 + px.val / 8]? = some b ∧
        b.getLsbD (7 - px.val % 8) = s.pixel px py) ∧
    (framebuffer .bytePerPixel2048 s).length = 2048 ∧
    (∀ (px : Fin 64) (py : Fin 32),
      (framebuffer .bytePerPixel2048 s)[py.val * 64 + px.val]? = some (if s.pixel px py = true then 1 else 0)) ∧
    ∀ layout, s.phase ≠ .ended → hostCall (.framebuffer layout) s = (s, .bytes (framebuffer layout s))

/-- R702: load(bytes) of at most 3584 bytes resets the whole state with the image at 0x200; a longer image records
LoadError of its length and changes nothing else. The record's info is a u32 (R603), so its clause is about lengths
below 2^32; log 10 names what the model records of longer images. -/
def Obligations.LoadResetsAndInstalls : Prop :=
  ∀ (bytes : List Byte) (s : State), s.phase ≠ .ended →
    (bytes.length ≤ 3584 →
      ∃ t, hostCall (.load bytes) s = (t, .done) ∧
        (∀ (a : Nat) (h : a < bytes.length), t.read (0x200 + a) = bytes[a]) ∧
        (∀ a : Fin 80, t.read a.val = s.cfg.glyphTable[a]) ∧
        (∀ a, 80 ≤ a → a < 0x200 ∨ 0x200 + bytes.length ≤ a → t.read a = 0) ∧
        (∀ r, t.getV r = 0) ∧ t.I = 0 ∧ t.DT = 0 ∧ t.ST = 0 ∧ (∀ k, t.getKey k = false) ∧
        (∀ px py, t.pixel px py = false) ∧ t.changed = false ∧ t.halted = false ∧
        t.SP = s.cfg.stackBase ∧ t.pc = 0x200 ∧ t.fault = none) ∧
    (3584 < bytes.length →
      ∃ t r, (hostCall (.load bytes) s).1 = t ∧ t.fault = some r ∧ r.kind = .loadError ∧
        (bytes.length < 2 ^ 32 → r.info.toNat = bytes.length) ∧ t = { s with fault := some r })

/-- R140 and R700: the state after reset is what a load of an empty image leaves at creation (the model's reading of
reset, log 1). -/
def Obligations.ResetIsLoadOfEmptyImage : Prop :=
  (hostCall (.load []) (createdState specConfig)).1 = State.reset

/-- R701: at creation every register, timer, key, pixel, flag and byte of memory is zero, no fault is recorded, and no
agent steps before the first successful load (the stops are the model's own form, log 11; after a refused load the CPU's
is the one R632 gives, log 22). -/
def Obligations.CreationIsZeroAndStill : Prop :=
  ∀ c : Config,
    (let s := createdState c
     (∀ r, s.getV r = 0) ∧ s.I = 0 ∧ s.pc = 0 ∧ s.SP = 0 ∧ s.DT = 0 ∧ s.ST = 0 ∧ (∀ a, s.read a = 0) ∧
     (∀ k, s.getKey k = false) ∧ (∀ px py, s.pixel px py = false) ∧ s.changed = false ∧ s.halted = false ∧
     s.fault = none) ∧
    ∀ s : State, s.phase = .created →
      cpuStep s = .fault (match s.fault with | none => .notLoaded | some r => .recorded r) ∧ runUnit .timer s = .next s ∧
      ∀ k, hostCall (.press k) s = (s, .refused) ∧ hostCall (.release k) s = (s, .refused)

/-- R634: no unit changes any state after the shutdown (the form, a phase of the model, is its own: log 11, 17; a CPU
unit with a fault set stops with its record, log 22). -/
def Obligations.NothingMovesAfterShutdown : Prop :=
  ∀ (s t : State), s.phase ≠ .ended → runUnit (.host .shutdown) s = .next t →
    SameBut [] [.phase] s t ∧ ∀ (u : AgentUnit) (v : State), v.phase = t.phase →
      (u ≠ .cpu ∨ v.fault = none → runUnit u v = .fault .shutDown) ∧
      ∀ r, u = .cpu → v.fault = some r → runUnit u v = .fault (.recorded r)

/-- R723: at a self-jump and at a wait with no key every CPU step leaves the whole state unchanged, for a machine with
an empty agenda (log 7) whose waiting pc addresses the Fx0A (R523). -/
def Obligations.EndsOfRunAreFixedPoints : Prop :=
  ∀ (e : EndOfRun) (s : State), atEndOfRun e s → WaitsAtKeyWait s → s.agenda = [] → step s = .next s

/-! ### The width of pc, SP and I (00_scope.md R9; log 20) -/

/-- I, pc and SP stay within ADDR_REG_WIDTH bits, at every width the parameter may take (R105, R120, R121 at its value
16; the other widths are the model's, log 20). -/
def Obligations.StepKeepsAddressRegistersInWidth : Prop :=
  ∀ s t : State, AddressRegistersFit s → step s = .next t → AddressRegistersFit t

/-- At every ADDR_REG_WIDTH w, Fx1E, a push and a pop wrap I and SP mod 2^w: R492, R422 and R423 at the spec's w = 16;
the other widths are the model's reading of D4 (log 20). -/
def Obligations.AddressUpdatesWrapAtTheWidth : Prop :=
  ∀ (x : Reg) (nnn : BitVec 12) (d : Nibble) (s : State) (modulus top target : Nat),
    modulus = 2 ^ s.cfg.addrRegWidth.val → top = (s.SP.toNat + 2) % modulus →
    target = (s.readWord s.SP.toNat).toNat + 2 →
    (∃ t, exec (.addI x) s = .next t ∧ t.I.toNat = (s.I.toNat + (s.getV x).toNat) % modulus) ∧
    (¬StackFull s → Writable s top → Writable s (top + 1) → ∃ t, exec (.call nnn) s = .next t ∧ t.SP.toNat = top) ∧
    (¬StackEmpty s → s.SP.toNat + 1 < 4096 → target < 4096 →
      ∃ t, exec (.ret d) s = .next t ∧ t.SP.toNat = (s.SP.toNat + modulus - 2) % modulus)
end

