-- ==== Sys2Proof/Laws/Memory.lean ====
section
/-! SUPPORT. The laws of the byte list: a read after a write, the canonical form kept by every operation, and
what an image and the zero memory read as. -/

namespace Sys2Proof.Machine

variable {t : Vector Byte 80} {m : Memory} {a c lo : Nat} {b : Byte} {bs : List Byte}

/-! ### Reading -/

theorem Memory.read_cons_same : Memory.read t (Memory.cons t a b m) a = if b = Memory.unlisted t a then Memory.read t m a else b := by
  by_cases h : b = Memory.unlisted t a <;> simp [Memory.cons, Memory.read, h]

theorem Memory.read_cons_ne (h : c ≠ a) : Memory.read t (Memory.cons t a b m) c = Memory.read t m c := by
  by_cases hb : b = Memory.unlisted t a <;> simp [Memory.cons, Memory.read, hb, h.symm]

/-- Below the bound of a canonical memory nothing is listed. -/
theorem Memory.read_below (h : Memory.wfFrom t lo m = true) (ha : a < lo) : Memory.read t m a = Memory.unlisted t a := by
  induction m generalizing lo with
  | nil => rfl
  | cons c rest ih =>
    obtain ⟨k, v⟩ := c
    simp only [Memory.wfFrom, Bool.and_eq_true, decide_eq_true_eq] at h
    simp only [Memory.read, if_neg (show ¬k = a by omega)]
    exact ih h.2 (by omega)

theorem Memory.wfFrom_mono {lo' : Nat} (h : Memory.wfFrom t lo m = true) (hl : lo' ≤ lo) : Memory.wfFrom t lo' m = true := by
  cases m with
  | nil => rfl
  | cons c rest =>
    obtain ⟨k, v⟩ := c
    simp only [Memory.wfFrom, Bool.and_eq_true, decide_eq_true_eq] at h ⊢
    exact ⟨⟨by omega, h.1.2⟩, h.2⟩

/-- A write leaves every other address alone, in any list. -/
theorem Memory.read_write_ne (h : c ≠ a) : Memory.read t (Memory.write t m a b) c = Memory.read t m c := by
  induction m with
  | nil => simp [Memory.write, Memory.read_cons_ne h]
  | cons d rest ih =>
    obtain ⟨k, v⟩ := d
    simp only [Memory.write]
    split
    · exact Memory.read_cons_ne h
    · split
      · rename_i _ hk
        simp [Memory.read_cons_ne h, Memory.read, show k ≠ c by omega]
      · simp [Memory.read, ih]

theorem Memory.read_write_same_from (hm : Memory.wfFrom t lo m = true) : Memory.read t (Memory.write t m a b) a = b := by
  induction m generalizing lo with
  | nil => simp only [Memory.write, Memory.read_cons_same, Memory.read]; split <;> simp_all
  | cons d rest ih =>
    obtain ⟨k, v⟩ := d
    have hm' := hm
    simp only [Memory.wfFrom, Bool.and_eq_true, decide_eq_true_eq] at hm'
    simp only [Memory.write]
    split
    · rename_i hlt
      have : Memory.read t ((k, v) :: rest) a = Memory.unlisted t a :=
        Memory.read_below (lo := k) (by simp [Memory.wfFrom, hm'.1.2, hm'.2]) hlt
      rw [Memory.read_cons_same, this]; split <;> simp_all
    · split
      · rename_i _ hk
        have : Memory.read t rest a = Memory.unlisted t a := Memory.read_below hm'.2 (by omega)
        rw [Memory.read_cons_same, this]; split <;> simp_all
      · rename_i _ hk
        simp only [Memory.read, if_neg (show ¬k = a by omega)]
        exact ih hm'.2

/-- A read after a write to the same address gives the byte written. -/
theorem Memory.read_write_same (hm : Memory.wf t m = true) : Memory.read t (Memory.write t m a b) a = b :=
  Memory.read_write_same_from hm

/-! ### The canonical form -/

theorem Memory.wfFrom_cons (h : Memory.wfFrom t (a + 1) m = true) (hl : lo ≤ a) : Memory.wfFrom t lo (Memory.cons t a b m) = true := by
  by_cases hb : b = Memory.unlisted t a
  · simpa [Memory.cons, hb] using Memory.wfFrom_mono h (by omega)
  · simp [Memory.cons, hb, Memory.wfFrom, h, hl]

theorem Memory.wfFrom_write (h : Memory.wfFrom t lo m = true) (hl : lo ≤ a) : Memory.wfFrom t lo (Memory.write t m a b) = true := by
  induction m generalizing lo with
  | nil => exact Memory.wfFrom_cons rfl hl
  | cons d rest ih =>
    obtain ⟨k, v⟩ := d
    have h' := h
    simp only [Memory.wfFrom, Bool.and_eq_true, decide_eq_true_eq] at h'
    simp only [Memory.write]
    split
    · exact Memory.wfFrom_cons (by simp [Memory.wfFrom, h'.1.2, h'.2]; omega) hl
    · split
      · rename_i _ hk
        exact Memory.wfFrom_cons (Memory.wfFrom_mono h'.2 (by omega)) hl
      · simp [Memory.wfFrom, h'.1, ih h'.2 (show k + 1 ≤ a by omega)]

/-- A write keeps the canonical form. -/
theorem Memory.wf_write (h : Memory.wf t m = true) : Memory.wf t (Memory.write t m a b) = true :=
  Memory.wfFrom_write h (Nat.zero_le _)

/-- A run of writes keeps the canonical form. -/
theorem Memory.wf_writeBytes (h : Memory.wf t m = true) : Memory.wf t (Memory.writeBytes t m a bs) = true := by
  induction bs generalizing m a with
  | nil => exact h
  | cons b bs ih => exact ih (Memory.wf_write h)

theorem Memory.wfFrom_image (hl : lo ≤ a) : Memory.wfFrom t lo (Memory.image t a bs) = true := by
  induction bs generalizing a lo with
  | nil => rfl
  | cons b bs ih => exact Memory.wfFrom_cons (ih (Nat.le_refl _)) hl

/-- A loaded image is canonical. -/
theorem Memory.wf_image : Memory.wf t (Memory.image t a bs) = true := Memory.wfFrom_image (Nat.zero_le _)

/-- The zero memory is canonical. -/
theorem Memory.wf_zeroed : Memory.wf t (Memory.zeroed t) = true := Memory.wf_image

/-! ### The address space -/

theorem Memory.inSpace_cons (h : Memory.inSpace m = true) (ha : a < 4096) : Memory.inSpace (Memory.cons t a b m) = true := by
  by_cases hb : b = Memory.unlisted t a
  · simpa [Memory.cons, hb] using h
  · simp only [Memory.cons, hb, if_false, Memory.inSpace, List.all_cons, Bool.and_eq_true, decide_eq_true_eq]
    exact ⟨ha, h⟩

theorem Memory.inSpace_write (h : Memory.inSpace m = true) (ha : a < 4096) : Memory.inSpace (Memory.write t m a b) = true := by
  induction m with
  | nil => exact Memory.inSpace_cons h ha
  | cons d rest ih =>
    obtain ⟨k, v⟩ := d
    have h' := h
    simp only [Memory.inSpace, List.all_cons, Bool.and_eq_true, decide_eq_true_eq] at h'
    simp only [Memory.write]
    split
    · exact Memory.inSpace_cons h ha
    · split
      · exact Memory.inSpace_cons h'.2 ha
      · simp only [Memory.inSpace, List.all_cons, Bool.and_eq_true, decide_eq_true_eq]
        exact ⟨h'.1, ih h'.2⟩

theorem Memory.inSpace_writeBytes (h : Memory.inSpace m = true) (ha : a + bs.length ≤ 4096) :
    Memory.inSpace (Memory.writeBytes t m a bs) = true := by
  induction bs generalizing m a with
  | nil => exact h
  | cons b bs ih =>
    simp only [List.length_cons] at ha
    exact ih (Memory.inSpace_write h (by omega)) (by omega)

theorem Memory.inSpace_image (ha : a + bs.length ≤ 4096) : Memory.inSpace (Memory.image t a bs) = true := by
  induction bs generalizing a with
  | nil => rfl
  | cons b bs ih =>
    simp only [List.length_cons] at ha
    exact Memory.inSpace_cons (ih (by omega)) (by omega)

/-! ### Runs of bytes -/

/-- Outside the run every byte reads as before, in any list. -/
theorem Memory.read_writeBytes_outside (h : c < a ∨ a + bs.length ≤ c) :
    Memory.read t (Memory.writeBytes t m a bs) c = Memory.read t m c := by
  induction bs generalizing m a with
  | nil => rfl
  | cons b bs ih =>
    simp only [List.length_cons] at h
    simp only [Memory.writeBytes]
    rw [ih (by omega), Memory.read_write_ne (by omega)]

/-- Inside the run the bytes written are read. -/
theorem Memory.read_writeBytes_inside (hm : Memory.wf t m = true) {i : Nat} (hi : i < bs.length) :
    Memory.read t (Memory.writeBytes t m a bs) (a + i) = bs[i] := by
  induction bs generalizing m a i with
  | nil => simp at hi
  | cons b bs ih =>
    simp only [Memory.writeBytes]
    cases i with
    | zero =>
      rw [Memory.read_writeBytes_outside (by omega)]
      simpa using Memory.read_write_same hm
    | succ i =>
      have := ih (a := a + 1) (Memory.wf_write (a := a) (b := b) hm) (i := i) (by simpa using hi)
      rw [show a + (i + 1) = a + 1 + i by omega, this]
      simp

/-- An image reads as its bytes inside and as load leaves memory outside. -/
theorem Memory.read_image : Memory.read t (Memory.image t a bs) c =
    if h : a ≤ c ∧ c - a < bs.length then bs[c - a]'h.2 else Memory.unlisted t c := by
  induction bs generalizing a with
  | nil => simp [Memory.image, Memory.read]
  | cons b bs ih =>
    simp only [Memory.image]
    by_cases hc : c = a
    · subst hc
      rw [Memory.read_cons_same, ih]
      simp only [Nat.sub_self, List.length_cons]
      split <;> simp_all
    · rw [Memory.read_cons_ne hc, ih]
      by_cases h : a + 1 ≤ c ∧ c - (a + 1) < bs.length
      · have h2 : a ≤ c ∧ c - a < (b :: bs).length := by simp only [List.length_cons]; omega
        rw [dif_pos h, dif_pos h2]
        simp [show c - a = (c - (a + 1)) + 1 by omega]
      · have h2 : ¬(a ≤ c ∧ c - a < (b :: bs).length) := by simp only [List.length_cons]; omega
        rw [dif_neg h, dif_neg h2]

/-- The zero memory reads as zero everywhere. -/
theorem Memory.read_zeroed : Memory.read t (Memory.zeroed t) c = 0 := by
  simp only [Memory.zeroed, Memory.read_image]
  split
  · exact List.getElem_replicate _
  · rename_i h
    simp only [List.length_replicate] at h
    simp [Memory.unlisted, show ¬c < 80 by omega]

/-! ### The same laws through a state -/

@[simp] theorem State.read_writeBytes_outside (s : State) (h : c < a ∨ a + bs.length ≤ c) :
    (s.writeBytes a bs).read c = s.read c := Memory.read_writeBytes_outside h

theorem State.read_writeBytes_inside (s : State) (hm : Memory.wf s.cfg.glyphTable s.Mem = true) {i : Nat}
    (hi : i < bs.length) : (s.writeBytes a bs).read (a + i) = bs[i] := Memory.read_writeBytes_inside hm hi

end Sys2Proof.Machine
end

