-- ==== Sys2Proof/Laws/State.lean ====
section
/-! SUPPORT. One lemma per field per update, each true by rfl, and the reads of registers, keys and pixels after
their writes. -/

namespace Sys2Proof.Machine

variable (s : State)

/-! ### setV -/

@[simp] theorem State.setV_V (r : Reg) (b : Byte) : (s.setV r b).V = s.V.set r b := rfl
@[simp] theorem State.setV_I (r : Reg) (b : Byte) : (s.setV r b).I = s.I := rfl
@[simp] theorem State.setV_pc (r : Reg) (b : Byte) : (s.setV r b).pc = s.pc := rfl
@[simp] theorem State.setV_SP (r : Reg) (b : Byte) : (s.setV r b).SP = s.SP := rfl
@[simp] theorem State.setV_DT (r : Reg) (b : Byte) : (s.setV r b).DT = s.DT := rfl
@[simp] theorem State.setV_ST (r : Reg) (b : Byte) : (s.setV r b).ST = s.ST := rfl
@[simp] theorem State.setV_Key (r : Reg) (b : Byte) : (s.setV r b).Key = s.Key := rfl
@[simp] theorem State.setV_Pix (r : Reg) (b : Byte) : (s.setV r b).Pix = s.Pix := rfl
@[simp] theorem State.setV_changed (r : Reg) (b : Byte) : (s.setV r b).changed = s.changed := rfl
@[simp] theorem State.setV_halted (r : Reg) (b : Byte) : (s.setV r b).halted = s.halted := rfl
@[simp] theorem State.setV_Mem (r : Reg) (b : Byte) : (s.setV r b).Mem = s.Mem := rfl
@[simp] theorem State.setV_fault (r : Reg) (b : Byte) : (s.setV r b).fault = s.fault := rfl
@[simp] theorem State.setV_phase (r : Reg) (b : Byte) : (s.setV r b).phase = s.phase := rfl
@[simp] theorem State.setV_cfg (r : Reg) (b : Byte) : (s.setV r b).cfg = s.cfg := rfl
@[simp] theorem State.setV_draws (r : Reg) (b : Byte) : (s.setV r b).draws = s.draws := rfl
@[simp] theorem State.setV_agenda (r : Reg) (b : Byte) : (s.setV r b).agenda = s.agenda := rfl

/-! ### setKey -/

@[simp] theorem State.setKey_V (k : Fin 16) (b : Bool) : (s.setKey k b).V = s.V := rfl
@[simp] theorem State.setKey_I (k : Fin 16) (b : Bool) : (s.setKey k b).I = s.I := rfl
@[simp] theorem State.setKey_pc (k : Fin 16) (b : Bool) : (s.setKey k b).pc = s.pc := rfl
@[simp] theorem State.setKey_SP (k : Fin 16) (b : Bool) : (s.setKey k b).SP = s.SP := rfl
@[simp] theorem State.setKey_DT (k : Fin 16) (b : Bool) : (s.setKey k b).DT = s.DT := rfl
@[simp] theorem State.setKey_ST (k : Fin 16) (b : Bool) : (s.setKey k b).ST = s.ST := rfl
@[simp] theorem State.setKey_Key (k : Fin 16) (b : Bool) : (s.setKey k b).Key = s.Key.set k b := rfl
@[simp] theorem State.setKey_Pix (k : Fin 16) (b : Bool) : (s.setKey k b).Pix = s.Pix := rfl
@[simp] theorem State.setKey_changed (k : Fin 16) (b : Bool) : (s.setKey k b).changed = s.changed := rfl
@[simp] theorem State.setKey_halted (k : Fin 16) (b : Bool) : (s.setKey k b).halted = s.halted := rfl
@[simp] theorem State.setKey_Mem (k : Fin 16) (b : Bool) : (s.setKey k b).Mem = s.Mem := rfl
@[simp] theorem State.setKey_fault (k : Fin 16) (b : Bool) : (s.setKey k b).fault = s.fault := rfl
@[simp] theorem State.setKey_phase (k : Fin 16) (b : Bool) : (s.setKey k b).phase = s.phase := rfl
@[simp] theorem State.setKey_cfg (k : Fin 16) (b : Bool) : (s.setKey k b).cfg = s.cfg := rfl
@[simp] theorem State.setKey_draws (k : Fin 16) (b : Bool) : (s.setKey k b).draws = s.draws := rfl
@[simp] theorem State.setKey_agenda (k : Fin 16) (b : Bool) : (s.setKey k b).agenda = s.agenda := rfl

/-! ### setPixel -/

@[simp] theorem State.setPixel_V (px : Fin 64) (py : Fin 32) (b : Bool) : (s.setPixel px py b).V = s.V := rfl
@[simp] theorem State.setPixel_I (px : Fin 64) (py : Fin 32) (b : Bool) : (s.setPixel px py b).I = s.I := rfl
@[simp] theorem State.setPixel_pc (px : Fin 64) (py : Fin 32) (b : Bool) : (s.setPixel px py b).pc = s.pc := rfl
@[simp] theorem State.setPixel_SP (px : Fin 64) (py : Fin 32) (b : Bool) : (s.setPixel px py b).SP = s.SP := rfl
@[simp] theorem State.setPixel_DT (px : Fin 64) (py : Fin 32) (b : Bool) : (s.setPixel px py b).DT = s.DT := rfl
@[simp] theorem State.setPixel_ST (px : Fin 64) (py : Fin 32) (b : Bool) : (s.setPixel px py b).ST = s.ST := rfl
@[simp] theorem State.setPixel_Key (px : Fin 64) (py : Fin 32) (b : Bool) : (s.setPixel px py b).Key = s.Key := rfl
@[simp] theorem State.setPixel_Pix (px : Fin 64) (py : Fin 32) (b : Bool) : (s.setPixel px py b).Pix = s.Pix.set px (s.Pix[px].set py b) := rfl
@[simp] theorem State.setPixel_changed (px : Fin 64) (py : Fin 32) (b : Bool) : (s.setPixel px py b).changed = s.changed := rfl
@[simp] theorem State.setPixel_halted (px : Fin 64) (py : Fin 32) (b : Bool) : (s.setPixel px py b).halted = s.halted := rfl
@[simp] theorem State.setPixel_Mem (px : Fin 64) (py : Fin 32) (b : Bool) : (s.setPixel px py b).Mem = s.Mem := rfl
@[simp] theorem State.setPixel_fault (px : Fin 64) (py : Fin 32) (b : Bool) : (s.setPixel px py b).fault = s.fault := rfl
@[simp] theorem State.setPixel_phase (px : Fin 64) (py : Fin 32) (b : Bool) : (s.setPixel px py b).phase = s.phase := rfl
@[simp] theorem State.setPixel_cfg (px : Fin 64) (py : Fin 32) (b : Bool) : (s.setPixel px py b).cfg = s.cfg := rfl
@[simp] theorem State.setPixel_draws (px : Fin 64) (py : Fin 32) (b : Bool) : (s.setPixel px py b).draws = s.draws := rfl
@[simp] theorem State.setPixel_agenda (px : Fin 64) (py : Fin 32) (b : Bool) : (s.setPixel px py b).agenda = s.agenda := rfl

/-! ### advance -/

@[simp] theorem State.advance_V : (s.advance).V = s.V := rfl
@[simp] theorem State.advance_I : (s.advance).I = s.I := rfl
@[simp] theorem State.advance_pc : (s.advance).pc = s.pc + 2 := rfl
@[simp] theorem State.advance_SP : (s.advance).SP = s.SP := rfl
@[simp] theorem State.advance_DT : (s.advance).DT = s.DT := rfl
@[simp] theorem State.advance_ST : (s.advance).ST = s.ST := rfl
@[simp] theorem State.advance_Key : (s.advance).Key = s.Key := rfl
@[simp] theorem State.advance_Pix : (s.advance).Pix = s.Pix := rfl
@[simp] theorem State.advance_changed : (s.advance).changed = s.changed := rfl
@[simp] theorem State.advance_halted : (s.advance).halted = s.halted := rfl
@[simp] theorem State.advance_Mem : (s.advance).Mem = s.Mem := rfl
@[simp] theorem State.advance_fault : (s.advance).fault = s.fault := rfl
@[simp] theorem State.advance_phase : (s.advance).phase = s.phase := rfl
@[simp] theorem State.advance_cfg : (s.advance).cfg = s.cfg := rfl
@[simp] theorem State.advance_draws : (s.advance).draws = s.draws := rfl
@[simp] theorem State.advance_agenda : (s.advance).agenda = s.agenda := rfl

/-! ### skipIf -/

@[simp] theorem State.skipIf_V (c : Bool) : (s.skipIf c).V = s.V := rfl
@[simp] theorem State.skipIf_I (c : Bool) : (s.skipIf c).I = s.I := rfl
@[simp] theorem State.skipIf_pc (c : Bool) : (s.skipIf c).pc = s.pc + (if c then 4 else 2) := rfl
@[simp] theorem State.skipIf_SP (c : Bool) : (s.skipIf c).SP = s.SP := rfl
@[simp] theorem State.skipIf_DT (c : Bool) : (s.skipIf c).DT = s.DT := rfl
@[simp] theorem State.skipIf_ST (c : Bool) : (s.skipIf c).ST = s.ST := rfl
@[simp] theorem State.skipIf_Key (c : Bool) : (s.skipIf c).Key = s.Key := rfl
@[simp] theorem State.skipIf_Pix (c : Bool) : (s.skipIf c).Pix = s.Pix := rfl
@[simp] theorem State.skipIf_changed (c : Bool) : (s.skipIf c).changed = s.changed := rfl
@[simp] theorem State.skipIf_halted (c : Bool) : (s.skipIf c).halted = s.halted := rfl
@[simp] theorem State.skipIf_Mem (c : Bool) : (s.skipIf c).Mem = s.Mem := rfl
@[simp] theorem State.skipIf_fault (c : Bool) : (s.skipIf c).fault = s.fault := rfl
@[simp] theorem State.skipIf_phase (c : Bool) : (s.skipIf c).phase = s.phase := rfl
@[simp] theorem State.skipIf_cfg (c : Bool) : (s.skipIf c).cfg = s.cfg := rfl
@[simp] theorem State.skipIf_draws (c : Bool) : (s.skipIf c).draws = s.draws := rfl
@[simp] theorem State.skipIf_agenda (c : Bool) : (s.skipIf c).agenda = s.agenda := rfl

/-! ### jump -/

@[simp] theorem State.jump_V (a : Nat) : (s.jump a).V = s.V := rfl
@[simp] theorem State.jump_I (a : Nat) : (s.jump a).I = s.I := rfl
@[simp] theorem State.jump_pc (a : Nat) : (s.jump a).pc = BitVec.ofNat 16 a := rfl
@[simp] theorem State.jump_SP (a : Nat) : (s.jump a).SP = s.SP := rfl
@[simp] theorem State.jump_DT (a : Nat) : (s.jump a).DT = s.DT := rfl
@[simp] theorem State.jump_ST (a : Nat) : (s.jump a).ST = s.ST := rfl
@[simp] theorem State.jump_Key (a : Nat) : (s.jump a).Key = s.Key := rfl
@[simp] theorem State.jump_Pix (a : Nat) : (s.jump a).Pix = s.Pix := rfl
@[simp] theorem State.jump_changed (a : Nat) : (s.jump a).changed = s.changed := rfl
@[simp] theorem State.jump_halted (a : Nat) : (s.jump a).halted = s.halted := rfl
@[simp] theorem State.jump_Mem (a : Nat) : (s.jump a).Mem = s.Mem := rfl
@[simp] theorem State.jump_fault (a : Nat) : (s.jump a).fault = s.fault := rfl
@[simp] theorem State.jump_phase (a : Nat) : (s.jump a).phase = s.phase := rfl
@[simp] theorem State.jump_cfg (a : Nat) : (s.jump a).cfg = s.cfg := rfl
@[simp] theorem State.jump_draws (a : Nat) : (s.jump a).draws = s.draws := rfl
@[simp] theorem State.jump_agenda (a : Nat) : (s.jump a).agenda = s.agenda := rfl

/-! ### writeBytes -/

@[simp] theorem State.writeBytes_V (a : Nat) (bs : List Byte) : (s.writeBytes a bs).V = s.V := rfl
@[simp] theorem State.writeBytes_I (a : Nat) (bs : List Byte) : (s.writeBytes a bs).I = s.I := rfl
@[simp] theorem State.writeBytes_pc (a : Nat) (bs : List Byte) : (s.writeBytes a bs).pc = s.pc := rfl
@[simp] theorem State.writeBytes_SP (a : Nat) (bs : List Byte) : (s.writeBytes a bs).SP = s.SP := rfl
@[simp] theorem State.writeBytes_DT (a : Nat) (bs : List Byte) : (s.writeBytes a bs).DT = s.DT := rfl
@[simp] theorem State.writeBytes_ST (a : Nat) (bs : List Byte) : (s.writeBytes a bs).ST = s.ST := rfl
@[simp] theorem State.writeBytes_Key (a : Nat) (bs : List Byte) : (s.writeBytes a bs).Key = s.Key := rfl
@[simp] theorem State.writeBytes_Pix (a : Nat) (bs : List Byte) : (s.writeBytes a bs).Pix = s.Pix := rfl
@[simp] theorem State.writeBytes_changed (a : Nat) (bs : List Byte) : (s.writeBytes a bs).changed = s.changed := rfl
@[simp] theorem State.writeBytes_halted (a : Nat) (bs : List Byte) : (s.writeBytes a bs).halted = s.halted := rfl
@[simp] theorem State.writeBytes_Mem (a : Nat) (bs : List Byte) : (s.writeBytes a bs).Mem = Memory.writeBytes s.cfg.glyphTable s.Mem a bs := rfl
@[simp] theorem State.writeBytes_fault (a : Nat) (bs : List Byte) : (s.writeBytes a bs).fault = s.fault := rfl
@[simp] theorem State.writeBytes_phase (a : Nat) (bs : List Byte) : (s.writeBytes a bs).phase = s.phase := rfl
@[simp] theorem State.writeBytes_cfg (a : Nat) (bs : List Byte) : (s.writeBytes a bs).cfg = s.cfg := rfl
@[simp] theorem State.writeBytes_draws (a : Nat) (bs : List Byte) : (s.writeBytes a bs).draws = s.draws := rfl
@[simp] theorem State.writeBytes_agenda (a : Nat) (bs : List Byte) : (s.writeBytes a bs).agenda = s.agenda := rfl

/-! ### raise -/

@[simp] theorem raise_V (c : Cause) (w : Option Word) : (raise c w s).V = s.V := rfl
@[simp] theorem raise_I (c : Cause) (w : Option Word) : (raise c w s).I = s.I := rfl
@[simp] theorem raise_pc (c : Cause) (w : Option Word) : (raise c w s).pc = s.pc := rfl
@[simp] theorem raise_SP (c : Cause) (w : Option Word) : (raise c w s).SP = s.SP := rfl
@[simp] theorem raise_DT (c : Cause) (w : Option Word) : (raise c w s).DT = s.DT := rfl
@[simp] theorem raise_ST (c : Cause) (w : Option Word) : (raise c w s).ST = s.ST := rfl
@[simp] theorem raise_Key (c : Cause) (w : Option Word) : (raise c w s).Key = s.Key := rfl
@[simp] theorem raise_Pix (c : Cause) (w : Option Word) : (raise c w s).Pix = s.Pix := rfl
@[simp] theorem raise_changed (c : Cause) (w : Option Word) : (raise c w s).changed = s.changed := rfl
@[simp] theorem raise_halted (c : Cause) (w : Option Word) : (raise c w s).halted = s.halted := rfl
@[simp] theorem raise_Mem (c : Cause) (w : Option Word) : (raise c w s).Mem = s.Mem := rfl
@[simp] theorem raise_fault (c : Cause) (w : Option Word) : (raise c w s).fault = some ⟨c.kind, BitVec.ofNat 32 c.info, s.pc, w⟩ := rfl
@[simp] theorem raise_phase (c : Cause) (w : Option Word) : (raise c w s).phase = s.phase := rfl
@[simp] theorem raise_cfg (c : Cause) (w : Option Word) : (raise c w s).cfg = s.cfg := rfl
@[simp] theorem raise_draws (c : Cause) (w : Option Word) : (raise c w s).draws = s.draws := rfl
@[simp] theorem raise_agenda (c : Cause) (w : Option Word) : (raise c w s).agenda = s.agenda := rfl

/-! ### push -/

@[simp] theorem push_V (a : Word) : (push a s).V = s.V := rfl
@[simp] theorem push_I (a : Word) : (push a s).I = s.I := rfl
@[simp] theorem push_pc (a : Word) : (push a s).pc = s.pc := rfl
@[simp] theorem push_SP (a : Word) : (push a s).SP = wrapAddr s.cfg (s.SP.toNat + 2) := rfl
@[simp] theorem push_DT (a : Word) : (push a s).DT = s.DT := rfl
@[simp] theorem push_ST (a : Word) : (push a s).ST = s.ST := rfl
@[simp] theorem push_Key (a : Word) : (push a s).Key = s.Key := rfl
@[simp] theorem push_Pix (a : Word) : (push a s).Pix = s.Pix := rfl
@[simp] theorem push_changed (a : Word) : (push a s).changed = s.changed := rfl
@[simp] theorem push_halted (a : Word) : (push a s).halted = s.halted := rfl
@[simp] theorem push_Mem (a : Word) : (push a s).Mem = Memory.writeBytes s.cfg.glyphTable s.Mem (pushAddr s).toNat [hiByte a, loByte a] := rfl
@[simp] theorem push_fault (a : Word) : (push a s).fault = s.fault := rfl
@[simp] theorem push_phase (a : Word) : (push a s).phase = s.phase := rfl
@[simp] theorem push_cfg (a : Word) : (push a s).cfg = s.cfg := rfl
@[simp] theorem push_draws (a : Word) : (push a s).draws = s.draws := rfl
@[simp] theorem push_agenda (a : Word) : (push a s).agenda = s.agenda := rfl

/-! ### pop -/

@[simp] theorem pop_V : (pop s).V = s.V := rfl
@[simp] theorem pop_I : (pop s).I = s.I := rfl
@[simp] theorem pop_pc : (pop s).pc = s.pc := rfl
@[simp] theorem pop_SP : (pop s).SP = wrapAddr s.cfg (s.SP.toNat + 2 ^ s.cfg.addrRegWidth.val - 2) := rfl
@[simp] theorem pop_DT : (pop s).DT = s.DT := rfl
@[simp] theorem pop_ST : (pop s).ST = s.ST := rfl
@[simp] theorem pop_Key : (pop s).Key = s.Key := rfl
@[simp] theorem pop_Pix : (pop s).Pix = s.Pix := rfl
@[simp] theorem pop_changed : (pop s).changed = s.changed := rfl
@[simp] theorem pop_halted : (pop s).halted = s.halted := rfl
@[simp] theorem pop_Mem : (pop s).Mem = s.Mem := rfl
@[simp] theorem pop_fault : (pop s).fault = s.fault := rfl
@[simp] theorem pop_phase : (pop s).phase = s.phase := rfl
@[simp] theorem pop_cfg : (pop s).cfg = s.cfg := rfl
@[simp] theorem pop_draws : (pop s).draws = s.draws := rfl
@[simp] theorem pop_agenda : (pop s).agenda = s.agenda := rfl

/-! ### loadRegisters -/

@[simp] theorem loadRegisters_V (x : Reg) : (loadRegisters x s).V = Vector.ofFn fun i : Fin 16 => if i.val ≤ x.val then s.read (indexAddr s i.val) else s.V[i] := rfl
@[simp] theorem loadRegisters_I (x : Reg) : (loadRegisters x s).I = s.I := rfl
@[simp] theorem loadRegisters_pc (x : Reg) : (loadRegisters x s).pc = s.pc := rfl
@[simp] theorem loadRegisters_SP (x : Reg) : (loadRegisters x s).SP = s.SP := rfl
@[simp] theorem loadRegisters_DT (x : Reg) : (loadRegisters x s).DT = s.DT := rfl
@[simp] theorem loadRegisters_ST (x : Reg) : (loadRegisters x s).ST = s.ST := rfl
@[simp] theorem loadRegisters_Key (x : Reg) : (loadRegisters x s).Key = s.Key := rfl
@[simp] theorem loadRegisters_Pix (x : Reg) : (loadRegisters x s).Pix = s.Pix := rfl
@[simp] theorem loadRegisters_changed (x : Reg) : (loadRegisters x s).changed = s.changed := rfl
@[simp] theorem loadRegisters_halted (x : Reg) : (loadRegisters x s).halted = s.halted := rfl
@[simp] theorem loadRegisters_Mem (x : Reg) : (loadRegisters x s).Mem = s.Mem := rfl
@[simp] theorem loadRegisters_fault (x : Reg) : (loadRegisters x s).fault = s.fault := rfl
@[simp] theorem loadRegisters_phase (x : Reg) : (loadRegisters x s).phase = s.phase := rfl
@[simp] theorem loadRegisters_cfg (x : Reg) : (loadRegisters x s).cfg = s.cfg := rfl
@[simp] theorem loadRegisters_draws (x : Reg) : (loadRegisters x s).draws = s.draws := rfl
@[simp] theorem loadRegisters_agenda (x : Reg) : (loadRegisters x s).agenda = s.agenda := rfl

/-! ### writeWithFlag -/

@[simp] theorem writeWithFlag_I (x : Reg) (r g : Byte) : (writeWithFlag x r g s).I = s.I := by
  unfold writeWithFlag; split <;> rfl
@[simp] theorem writeWithFlag_pc (x : Reg) (r g : Byte) : (writeWithFlag x r g s).pc = s.pc := by
  unfold writeWithFlag; split <;> rfl
@[simp] theorem writeWithFlag_SP (x : Reg) (r g : Byte) : (writeWithFlag x r g s).SP = s.SP := by
  unfold writeWithFlag; split <;> rfl
@[simp] theorem writeWithFlag_DT (x : Reg) (r g : Byte) : (writeWithFlag x r g s).DT = s.DT := by
  unfold writeWithFlag; split <;> rfl
@[simp] theorem writeWithFlag_ST (x : Reg) (r g : Byte) : (writeWithFlag x r g s).ST = s.ST := by
  unfold writeWithFlag; split <;> rfl
@[simp] theorem writeWithFlag_Key (x : Reg) (r g : Byte) : (writeWithFlag x r g s).Key = s.Key := by
  unfold writeWithFlag; split <;> rfl
@[simp] theorem writeWithFlag_Pix (x : Reg) (r g : Byte) : (writeWithFlag x r g s).Pix = s.Pix := by
  unfold writeWithFlag; split <;> rfl
@[simp] theorem writeWithFlag_changed (x : Reg) (r g : Byte) : (writeWithFlag x r g s).changed = s.changed := by
  unfold writeWithFlag; split <;> rfl
@[simp] theorem writeWithFlag_halted (x : Reg) (r g : Byte) : (writeWithFlag x r g s).halted = s.halted := by
  unfold writeWithFlag; split <;> rfl
@[simp] theorem writeWithFlag_Mem (x : Reg) (r g : Byte) : (writeWithFlag x r g s).Mem = s.Mem := by
  unfold writeWithFlag; split <;> rfl
@[simp] theorem writeWithFlag_fault (x : Reg) (r g : Byte) : (writeWithFlag x r g s).fault = s.fault := by
  unfold writeWithFlag; split <;> rfl
@[simp] theorem writeWithFlag_phase (x : Reg) (r g : Byte) : (writeWithFlag x r g s).phase = s.phase := by
  unfold writeWithFlag; split <;> rfl
@[simp] theorem writeWithFlag_cfg (x : Reg) (r g : Byte) : (writeWithFlag x r g s).cfg = s.cfg := by
  unfold writeWithFlag; split <;> rfl
@[simp] theorem writeWithFlag_draws (x : Reg) (r g : Byte) : (writeWithFlag x r g s).draws = s.draws := by
  unfold writeWithFlag; split <;> rfl
@[simp] theorem writeWithFlag_agenda (x : Reg) (r g : Byte) : (writeWithFlag x r g s).agenda = s.agenda := by
  unfold writeWithFlag; split <;> rfl

/-! ### The wrap of I and SP -/

/-- The width is at most that of a u16. -/
theorem two_pow_addrRegWidth_le (c : Config) : 2 ^ c.addrRegWidth.val ≤ 65536 :=
  (Nat.pow_le_pow_right (by decide) (Nat.le_of_lt_succ c.addrRegWidth.isLt)).trans (by decide)

@[simp] theorem wrapAddr_toNat (c : Config) (n : Nat) : (wrapAddr c n).toNat = n % 2 ^ c.addrRegWidth.val := by
  rw [wrapAddr, BitVec.toNat_ofNat]
  exact Nat.mod_eq_of_lt (Nat.lt_of_lt_of_le (Nat.mod_lt _ (Nat.two_pow_pos _)) (two_pow_addrRegWidth_le c))

/-- At the spec's ADDR_REG_WIDTH the wrap is that of a u16. -/
theorem wrapAddr_of_width_16 {c : Config} (h : c.addrRegWidth = 16) (n : Nat) : wrapAddr c n = BitVec.ofNat 16 n := by
  apply BitVec.eq_of_toNat_eq
  rw [wrapAddr_toNat, h]
  rfl

/-- The wrapped value fits in ADDR_REG_WIDTH bits. -/
theorem wrapAddr_lt (c : Config) (n : Nat) : (wrapAddr c n).toNat < 2 ^ c.addrRegWidth.val := by
  rw [wrapAddr_toNat]
  exact Nat.mod_lt _ (Nat.two_pow_pos _)

/-- A pop undoes the SP of a push (R425). -/
theorem wrapAddr_back {c : Config} (hw : 1 ≤ c.addrRegWidth.val) {n : Nat} (h : n < 2 ^ c.addrRegWidth.val) :
    (wrapAddr c ((wrapAddr c (n + 2)).toNat + 2 ^ c.addrRegWidth.val - 2)).toNat = n := by
  have h2 : 2 ≤ 2 ^ c.addrRegWidth.val := Nat.le_self_pow (by omega) 2
  simp only [wrapAddr_toNat]
  by_cases hn : n + 2 < 2 ^ c.addrRegWidth.val
  · rw [Nat.mod_eq_of_lt hn, show n + 2 + 2 ^ c.addrRegWidth.val - 2 = n + 2 ^ c.addrRegWidth.val by omega,
      Nat.add_mod_right, Nat.mod_eq_of_lt h]
  · rw [Nat.mod_eq_sub_mod (Nat.le_of_not_lt hn), Nat.mod_eq_of_lt (a := n + 2 - _) (by omega), show
      n + 2 - 2 ^ c.addrRegWidth.val + 2 ^ c.addrRegWidth.val - 2 = n by omega, Nat.mod_eq_of_lt h]

/-! ### Registers, keys, pixels -/

theorem State.getV_setV (r q : Reg) (b : Byte) : (s.setV r b).getV q = if r = q then b else s.getV q := by
  simp only [State.getV, State.setV, Fin.getElem_fin, Vector.getElem_set, Fin.ext_iff]

@[simp] theorem State.getV_setV_same (r : Reg) (b : Byte) : (s.setV r b).getV r = b := by simp [State.getV_setV]

theorem State.getV_setV_ne {r q : Reg} (b : Byte) (h : r ≠ q) : (s.setV r b).getV q = s.getV q := by
  simp [State.getV_setV, h]

theorem State.getKey_setKey (k q : Fin 16) (b : Bool) : (s.setKey k b).getKey q = if k = q then b else s.getKey q := by
  simp only [State.getKey, State.setKey, Fin.getElem_fin, Vector.getElem_set, Fin.ext_iff]

theorem State.pixel_setPixel (px qx : Fin 64) (py qy : Fin 32) (b : Bool) :
    (s.setPixel px py b).pixel qx qy = if px = qx ∧ py = qy then b else s.pixel qx qy := by
  simp only [State.pixel, State.setPixel, Fin.getElem_fin, Vector.getElem_set, Fin.ext_iff]
  by_cases h : px.val = qx.val
  · simp only [h, if_true, Vector.getElem_set, true_and]
  · simp [h]

/-- A register of a state depends on its V alone. -/
theorem State.getV_congr {s t : State} (h : t.V = s.V) (r : Reg) : t.getV r = s.getV r := by
  simp [State.getV, h]

/-- A key of a state depends on its Key alone. -/
theorem State.getKey_congr {s t : State} (h : t.Key = s.Key) (k : Fin 16) : t.getKey k = s.getKey k := by
  simp [State.getKey, h]

/-- A pixel of a state depends on its Pix alone. -/
theorem State.pixel_congr {s t : State} (h : t.Pix = s.Pix) (px : Fin 64) (py : Fin 32) :
    t.pixel px py = s.pixel px py := by
  simp [State.pixel, h]

/-- A byte of a state depends on its Mem and its glyph table alone. -/
theorem State.read_congr {s t : State} (hm : t.Mem = s.Mem) (hc : t.cfg = s.cfg) (a : Nat) : t.read a = s.read a := by
  simp [State.read, hm, hc]

/-- Register `i` after a block load (R500). -/
theorem getV_loadRegisters (x r : Reg) :
    (loadRegisters x s).getV r = if r.val ≤ x.val then s.read (indexAddr s r.val) else s.getV r := by
  simp [State.getV, loadRegisters]

/-- Every register after the write of a result and a flag (R461). -/
theorem getV_writeWithFlag (x q : Reg) (r g : Byte) : (writeWithFlag x r g s).getV q =
    match s.cfg.vfOrder with
    | .flagLast => if VF = q then g else if x = q then r else s.getV q
    | .resultLast => if x = q then r else if VF = q then g else s.getV q := by
  unfold writeWithFlag
  cases s.cfg.vfOrder <;> simp only [State.getV_setV]

end Sys2Proof.Machine
end

