-- ==== Sys2Proof/Laws/Checks.lean ====
section
/-! SUPPORT. What each check answers, and when a guarded instruction completes or raises. -/

namespace Sys2Proof.Machine

variable {a n i : Nat} {p : GlyphWritePolicy} {check : Nat → Option Cause} {c : Cause} {s done : State} {w : Word}

@[simp] theorem resolve_eq_none_iff : resolve a = none ↔ a < 4096 := by
  simp [resolve]

theorem resolve_eq_some_iff : resolve a = some c ↔ 4096 ≤ a ∧ c = ⟨.outOfBounds, a⟩ := by
  simp only [resolve]; split <;> simp_all [eq_comm]

@[simp] theorem checkWrite_eq_none_iff : checkWrite p a = none ↔ a < 4096 ∧ (p = .fault → 0x050 ≤ a) := by
  by_cases h : a < glyphEnd ∧ p = .fault
  · have : a < 80 := h.1
    simp [checkWrite, h, this]
  · have : p = .fault → 80 ≤ a := fun hf => Nat.le_of_not_lt fun hlt => h ⟨hlt, hf⟩
    simpa [checkWrite, h] using fun _ => this

/-- A write check fails with OutOfBounds at 4096 and above, with ProtectedWrite below (R206). -/
theorem checkWrite_eq_some_iff : checkWrite p a = some c ↔
    ¬(a < 4096 ∧ (p = .fault → 0x050 ≤ a)) ∧ c = ⟨writeFaultKind a, a⟩ := by
  by_cases h : 4096 ≤ a
  · simp [checkWrite, resolve, h, writeFaultKind, eq_comm, show ¬a < 4096 by omega]
  · by_cases hp : a < glyphEnd ∧ p = .fault
    · have h' : a < 80 := hp.1
      simp [checkWrite, resolve, h, writeFaultKind, hp, eq_comm, h', show a < 4096 by omega]
    · simp only [checkWrite, resolve, if_neg h, if_neg hp, Option.or_none, reduceCtorEq, false_iff, not_and]
      intro hn
      exact (hn (Nat.lt_of_not_le h) fun hf => Nat.le_of_not_lt fun hlt => hp ⟨hlt, hf⟩).elim

/-- No check in the run fails. -/
theorem firstFailing_eq_none_iff : firstFailing check a n = none ↔ ∀ k, k < n → check (a + k) = none := by
  induction n generalizing a with
  | zero => simp [firstFailing]
  | succ n ih =>
    simp only [firstFailing, Option.or_eq_none_iff, ih]
    constructor
    · rintro ⟨h0, h⟩ k hk
      cases k with
      | zero => exact h0
      | succ k => have := h k (by omega); rwa [show a + 1 + k = a + (k + 1) by omega] at this
    · intro h
      refine ⟨h 0 (by omega), fun k hk => ?_⟩
      have := h (k + 1) (by omega)
      rwa [show a + (k + 1) = a + 1 + k by omega] at this

/-- The run's answer is its first failing check's (R605: ascending addresses). -/
theorem firstFailing_eq_some_iff : firstFailing check a n = some c ↔
    ∃ k, k < n ∧ check (a + k) = some c ∧ ∀ j, j < k → check (a + j) = none := by
  induction n generalizing a with
  | zero => simp [firstFailing]
  | succ n ih =>
    simp only [firstFailing]
    cases h0 : check a with
    | some d =>
      simp only [Option.some_or, Option.some.injEq]
      constructor
      · rintro rfl; exact ⟨0, by omega, h0, fun j hj => absurd hj (by omega)⟩
      · rintro ⟨k, _, hk, hj⟩
        cases k with
        | zero => simpa [h0] using hk
        | succ k => have := hj 0 (by omega); simp [h0] at this
    | none =>
      simp only [Option.none_or, ih]
      constructor
      · rintro ⟨k, hk, hc, hj⟩
        refine ⟨k + 1, by omega, by rwa [show a + (k + 1) = a + 1 + k by omega], fun j hlt => ?_⟩
        cases j with
        | zero => exact h0
        | succ j => rw [show a + (j + 1) = a + 1 + j by omega]; exact hj j (by omega)
      · rintro ⟨k, hk, hc, hj⟩
        cases k with
        | zero => simp [h0] at hc
        | succ k =>
          refine ⟨k, by omega, by rwa [show a + 1 + k = a + (k + 1) by omega], fun j hlt => ?_⟩
          rw [show a + 1 + j = a + (j + 1) by omega]; exact hj (j + 1) (by omega)

/-- Every address of the run can be read. -/
theorem firstFailing_resolve_eq_none_iff : firstFailing resolve a n = none ↔ n = 0 ∨ a + n ≤ 4096 := by
  rw [firstFailing_eq_none_iff]
  constructor
  · intro h
    by_cases h0 : n = 0
    · exact .inl h0
    · have := h (n - 1) (by omega); rw [resolve_eq_none_iff] at this; omega
  · intro h k hk; rw [resolve_eq_none_iff]; omega

/-- Every write of the run passes. -/
theorem firstFailing_checkWrite_none (h : ∀ k, k < n → Writable s (a + k)) :
    firstFailing (checkWrite s.cfg.glyphWritePolicy) a n = none :=
  firstFailing_eq_none_iff.mpr fun k hk => checkWrite_eq_none_iff.mpr (h k hk)

/-- The run's fault is that of its lowest address that cannot be written. -/
theorem firstFailing_checkWrite_some {k : Nat} (hk : k < n) (h : ∀ j, j < k → Writable s (a + j))
    (hn : ¬Writable s (a + k)) :
    firstFailing (checkWrite s.cfg.glyphWritePolicy) a n = some ⟨writeFaultKind (a + k), a + k⟩ :=
  firstFailing_eq_some_iff.mpr
    ⟨k, hk, checkWrite_eq_some_iff.mpr ⟨hn, rfl⟩, fun j hj => checkWrite_eq_none_iff.mpr (h j hj)⟩

/-- Every read of the run passes. -/
theorem firstFailing_resolve_none (h : ∀ k, k < n → Readable (a + k)) : firstFailing resolve a n = none :=
  firstFailing_eq_none_iff.mpr fun k hk => resolve_eq_none_iff.mpr (h k hk)

/-- The run's fault is OutOfBounds of its lowest address that cannot be read. -/
theorem firstFailing_resolve_some {k : Nat} (hk : k < n) (h : ∀ j, j < k → Readable (a + j)) (hn : ¬Readable (a + k)) :
    firstFailing resolve a n = some ⟨.outOfBounds, a + k⟩ :=
  firstFailing_eq_some_iff.mpr
    ⟨k, hk, resolve_eq_some_iff.mpr ⟨Nat.le_of_not_lt hn, rfl⟩, fun j hj => resolve_eq_none_iff.mpr (h j hj)⟩

/-! ### The stack -/

theorem overflowCheck_of_full (h : StackFull s) : overflowCheck s = some ⟨.stackOverflow, s.SP.toNat⟩ := by
  obtain ⟨d, hd, hle⟩ := h
  simp [overflowCheck, hd, hle]

theorem overflowCheck_of_not_full (h : ¬StackFull s) : overflowCheck s = none := by
  unfold overflowCheck
  split
  · rfl
  · rename_i d hd
    exact if_neg fun hle => h ⟨d, hd, hle⟩

theorem underflowCheck_of_empty (h : StackEmpty s) : underflowCheck s = some ⟨.stackUnderflow, s.SP.toNat⟩ := by
  obtain ⟨⟨d, hd⟩, hle⟩ := h
  simp [underflowCheck, hd, hle]

theorem underflowCheck_of_not_empty (h : ¬StackEmpty s) : underflowCheck s = none := by
  unfold underflowCheck
  split
  · rfl
  · rename_i d hd
    exact if_neg fun hle => h ⟨⟨d, hd⟩, hle⟩

/-- The popped value is the big-endian word at SP (R13, R423). -/
theorem popValue_toNat (s : State) :
    (popValue s).toNat = (s.read s.SP.toNat).toNat * 256 + (s.read (s.SP.toNat + 1)).toNat := by
  have := (s.read s.SP.toNat).isLt
  have := (s.read (s.SP.toNat + 1)).isLt
  simp [popValue, State.readWord, joinBytes]; omega

/-! ### A guarded instruction -/

theorem guarded_none : guarded none w s done = .next done := rfl

theorem guarded_some : guarded (some c) w s done = .next (raise c (some w) s) := rfl

/-- It completes exactly when its check passes, and otherwise takes the fault; it never stops. -/
theorem guarded_cases (check : Option Cause) (w : Word) (s done : State) :
    (check = none ∧ guarded check w s done = .next done) ∨
    ∃ c, check = some c ∧ guarded check w s done = .next (raise c (some w) s) := by
  cases check with
  | none => exact .inl ⟨rfl, rfl⟩
  | some c => exact .inr ⟨c, rfl, rfl⟩

/-! ### The fetch -/

/-- The fetch succeeds exactly when both bytes are in the address space (R210). -/
theorem fetch_eq_ok_iff : fetch s = .ok w ↔ s.pc.toNat + 1 < 4096 ∧ w = s.readWord s.pc.toNat := by
  simp only [fetch]
  split
  · rename_i d h
    simp only [reduceCtorEq, false_iff, not_and]
    intro hlt
    rw [firstFailing_resolve_eq_none_iff.mpr (by omega)] at h; simp at h
  · rename_i h
    rw [firstFailing_resolve_eq_none_iff] at h
    simp only [Except.ok.injEq, eq_comm (a := w)]
    constructor
    · intro hw; exact ⟨by omega, hw⟩
    · exact fun hw => hw.2

/-- A failed fetch raises OutOfBounds with the first address that fails (R210, R605). -/
theorem fetch_eq_error_iff : fetch s = .error c ↔
    (4096 ≤ s.pc.toNat ∧ c = ⟨.outOfBounds, s.pc.toNat⟩) ∨ (s.pc.toNat = 4095 ∧ c = ⟨.outOfBounds, 4096⟩) := by
  by_cases h1 : 4096 ≤ s.pc.toNat
  · have : firstFailing resolve s.pc.toNat 2 = some ⟨.outOfBounds, s.pc.toNat⟩ := by
      simp [firstFailing, resolve, h1]
    simp only [fetch, this, Except.error.injEq, h1, true_and]
    constructor
    · rintro rfl; exact .inl rfl
    · rintro (h | h)
      · exact h.symm
      · omega
  · by_cases h2 : s.pc.toNat = 4095
    · have : firstFailing resolve s.pc.toNat 2 = some ⟨.outOfBounds, 4096⟩ := by
        simp [firstFailing, resolve, h2]
      simp only [fetch, this, Except.error.injEq]
      constructor
      · rintro rfl; exact .inr ⟨h2, rfl⟩
      · rintro (h | h)
        · exact absurd h.1 h1
        · exact h.2.symm
    · have : firstFailing resolve s.pc.toNat 2 = none := firstFailing_resolve_eq_none_iff.mpr (by omega)
      simp [fetch, this, h1, h2]

end Sys2Proof.Machine
end

