-- ==== Sys2Proof/Laws/Display.lean ====
section
/-! SUPPORT. What a draw can change (VF and the pixels, and nothing else), and the draw as one loop over its 8 * n
turns. -/

namespace Sys2Proof.Machine

/-- `t` differs from `s` in VF and the pixels alone. -/
def OnlyDrawn (s t : State) : Prop := t = { s with V := t.V, Pix := t.Pix } ∧ ∀ r, r ≠ VF → t.getV r = s.getV r

theorem OnlyDrawn.refl (s : State) : OnlyDrawn s s := ⟨rfl, fun _ _ => rfl⟩

theorem OnlyDrawn.trans {s t u : State} (h : OnlyDrawn s t) (h' : OnlyDrawn t u) : OnlyDrawn s u :=
  ⟨by rw [h'.1, h.1], fun r hr => (h'.2 r hr).trans (h.2 r hr)⟩

theorem OnlyDrawn.foldl {α : Type} {f : State → α → State} (hf : ∀ t a, OnlyDrawn t (f t a)) (l : List α) (s : State) :
    OnlyDrawn s (l.foldl f s) := by
  induction l generalizing s with
  | nil => exact .refl s
  | cons a l ih => exact (hf s a).trans (ih (f s a))

theorem OnlyDrawn.setV (s : State) (b : Byte) : OnlyDrawn s (s.setV VF b) :=
  ⟨rfl, fun _ hr => State.getV_setV_ne s b hr.symm⟩

theorem OnlyDrawn.setPixel (s : State) (px : Fin 64) (py : Fin 32) (b : Bool) : OnlyDrawn s (s.setPixel px py b) :=
  ⟨rfl, fun _ _ => rfl⟩

theorem drawPixel_onlyDrawn (x y : Reg) (before : State) (row col : Nat) (s : State) :
    OnlyDrawn s (drawPixel x y before row col s) := by
  simp only [drawPixel]
  split
  · split
    · exact (OnlyDrawn.setV s 1).trans (.setPixel ..)
    · exact .setPixel ..
  · exact .refl s

theorem drawSprite_onlyDrawn (x y : Reg) (n : Nat) (s : State) : OnlyDrawn s (drawSprite x y n s) :=
  (OnlyDrawn.setV s 0).trans
    (.foldl (fun t row => .foldl (fun u col => drawPixel_onlyDrawn x y s row col u) (List.range 8) t) (List.range n) _)

/-! ### The draw, turn by turn (R404) -/

/-- The state before turn `k` of the draw that begins in `s`: row k / 8, column k % 8. -/
def drawTurns (x y : Reg) (s : State) : Nat → State
  | 0 => s.setV VF 0
  | k + 1 => drawPixel x y s (k / 8) (k % 8) (drawTurns x y s k)

theorem drawRow_drawTurns (x y : Reg) (s : State) (row : Nat) :
    drawRow x y s row (drawTurns x y s (8 * row)) = drawTurns x y s (8 * (row + 1)) := by
  rw [show 8 * (row + 1) = 8 * row + 7 + 1 by omega]
  simp only [drawRow, List.range, List.range.loop, List.foldl, drawTurns]
  have div : ∀ j, j < 8 → (8 * row + j) / 8 = row := by omega
  have mod : ∀ j, j < 8 → (8 * row + j) % 8 = j := by omega
  simp only [div 1 (by decide), div 2 (by decide), div 3 (by decide), div 4 (by decide), div 5 (by decide),
    div 6 (by decide), div 7 (by decide), mod 1 (by decide), mod 2 (by decide), mod 3 (by decide),
    mod 4 (by decide), mod 5 (by decide), mod 6 (by decide), mod 7 (by decide)]
  rw [show 8 * row / 8 = row by omega, show 8 * row % 8 = 0 by omega]

theorem drawSprite_eq_drawTurns (x y : Reg) (n : Nat) (s : State) : drawSprite x y n s = drawTurns x y s (8 * n) := by
  unfold drawSprite
  induction n with
  | zero => rfl
  | succ n ih => rw [List.range_succ, List.foldl_append, ih]; exact drawRow_drawTurns x y s n

theorem drawTurns_onlyDrawn (x y : Reg) (s : State) (k : Nat) : OnlyDrawn s (drawTurns x y s k) := by
  induction k with
  | zero => exact .setV ..
  | succ k ih => exact ih.trans (drawPixel_onlyDrawn ..)

theorem pixel_setPixel (s : State) (px qx : Fin 64) (py qy : Fin 32) (b : Bool) :
    (s.setPixel px py b).pixel qx qy = if qx = px ∧ qy = py then b else s.pixel qx qy := by
  simp only [State.setPixel, State.pixel]
  by_cases hx : qx = px
  · subst hx
    by_cases hy : qy = py
    · subst hy; simp
    · simp [hy, Vector.getElem_set_ne, show py.val ≠ qy.val from fun h => hy (Fin.ext h.symm)]
  · simp [hx, Vector.getElem_set_ne, show px.val ≠ qx.val from fun h => hx (Fin.ext h.symm)]

/-- One turn of the loop: the pixel (px, py) it falls on is XORed with the sprite's bit, and VF becomes 1 when both
were 1 (R404). -/
theorem drawTurns_succ (x y : Reg) (s : State) (k : Nat) (px : Fin 64) (py : Fin 32)
    (hx : px.val = (drawCoord x s (drawTurns x y s k) + k % 8) % 64)
    (hy : py.val = (drawCoord y s (drawTurns x y s k) + k / 8) % 32) :
    let bit := spriteBit s.cfg.spriteBitOrder (s.read (indexAddr s (k / 8))) (k % 8)
    (drawTurns x y s (k + 1)).getV VF =
      (if bit = true ∧ (drawTurns x y s k).pixel px py = true then 1 else (drawTurns x y s k).getV VF) ∧
    ∀ qx qy, (drawTurns x y s (k + 1)).pixel qx qy =
      if qx = px ∧ qy = py then (drawTurns x y s k).pixel qx qy ^^ bit else (drawTurns x y s k).pixel qx qy := by
  intro bit
  have hcol : columnOf (drawCoord x s (drawTurns x y s k) + k % 8) = px := Fin.ext hx.symm
  have hrow : rowOf (drawCoord y s (drawTurns x y s k) + k / 8) = py := Fin.ext hy.symm
  have hbit : spriteBit (drawTurns x y s k).cfg.spriteBitOrder
      ((drawTurns x y s k).read (indexAddr (drawTurns x y s k) (k / 8))) (k % 8) = bit := by
    rw [(drawTurns_onlyDrawn x y s k).1]; rfl
  simp only [drawTurns, drawPixel, hbit, hcol, hrow]
  generalize drawTurns x y s k = u
  cases bit
  · simp
  · simp only [if_true, true_and]
    cases hp : u.pixel px py
    · simp only [Bool.false_eq_true, if_false]
      refine ⟨rfl, fun qx qy => ?_⟩
      rw [pixel_setPixel]
      split
      · rename_i h; rw [h.1, h.2, hp]; rfl
      · rfl
    · simp only [if_true]
      refine ⟨State.getV_setV_same .., fun qx qy => ?_⟩
      rw [pixel_setPixel]
      split
      · rename_i h; rw [h.1, h.2, hp]; rfl
      · rfl

end Sys2Proof.Machine
end

