-- ==== Sys2Proof/Laws/Exec.lean ====
section
/-! SUPPORT. Said once of every instruction: it never stops, and it either raises a fault of its own word, changing
nothing else, or completes with the fault status, the phase, the parameters, the agenda and the keys unchanged. -/

namespace Sys2Proof.Machine

/-- The outcome of an instruction that raises a fault. -/
def Raised (i : Instr) (s t : State) : Prop := ∃ c, t = raise c (some (encode i)) s

/-- What every completed instruction leaves unchanged. -/
def Completed (s t : State) : Prop :=
  t.fault = s.fault ∧ t.phase = s.phase ∧ t.cfg = s.cfg ∧ t.agenda = s.agenda ∧ t.Key = s.Key

theorem guarded_raised_or {i : Instr} {check : Option Cause} {s done : State} (h : Completed s done) :
    ∃ t, guarded check (encode i) s done = .next t ∧ (Raised i s t ∨ t = done ∧ Completed s t) := by
  rcases guarded_cases check (encode i) s done with ⟨-, hg⟩ | ⟨c, -, hg⟩
  · exact ⟨done, hg, .inr ⟨rfl, h⟩⟩
  · exact ⟨_, hg, .inl ⟨c, rfl⟩⟩

theorem completed_of_onlyDrawn {s t : State} (h : OnlyDrawn s t) : Completed s t := by
  rw [h.1]; exact ⟨rfl, rfl, rfl, rfl, rfl⟩

/-- Every instruction answers a next state: a fault record of its own, or a completed effect. -/
theorem exec_raised_or_completed (i : Instr) (s : State) :
    ∃ t, exec i s = .next t ∧ (Raised i s t ∨ Completed s t) := by
  have gate : ∀ {check : Option Cause} {d : State}, Completed s d →
      ∃ t, guarded check (encode i) s d = .next t ∧ (Raised i s t ∨ Completed s t) := fun hc => by
    obtain ⟨t, ht, h⟩ := guarded_raised_or (i := i) (check := _) hc
    exact ⟨t, ht, h.imp_right And.right⟩
  cases i
  case drw x y n =>
    refine gate (d := ({ drawSprite x y n.val s with changed := true } : State).advance) ?_
    obtain ⟨h1, h2, h3, h4, h5⟩ := completed_of_onlyDrawn (drawSprite_onlyDrawn x y n.val s)
    exact ⟨h1, h2, h3, h4, h5⟩
  case ldVxKey x =>
    simp only [exec, execLdVxKey]
    split <;> exact ⟨_, rfl, .inr ⟨rfl, rfl, rfl, rfl, rfl⟩⟩
  case ret d => exact gate (d := (pop s).jump (returnTarget s)) ⟨rfl, rfl, rfl, rfl, rfl⟩
  case call nnn => exact gate (d := (push s.pc s).jump nnn.toNat) ⟨rfl, rfl, rfl, rfl, rfl⟩
  case jpV0 nnn => exact gate (d := s.jump (indexedTarget nnn s)) ⟨rfl, rfl, rfl, rfl, rfl⟩
  case skp x => exact gate (d := s.skipIf (keyNamed x s)) ⟨rfl, rfl, rfl, rfl, rfl⟩
  case sknp x => exact gate (d := s.skipIf (!keyNamed x s)) ⟨rfl, rfl, rfl, rfl, rfl⟩
  case ldB x =>
    exact gate (d := (s.writeBytes (indexAddr s 0) (decimalDigits (s.getV x))).advance) ⟨rfl, rfl, rfl, rfl, rfl⟩
  case store x =>
    exact gate (d := (s.writeBytes (indexAddr s 0) (lowRegisters x s)).advance) ⟨rfl, rfl, rfl, rfl, rfl⟩
  case load x => exact gate (d := (loadRegisters x s).advance) ⟨by simp, by simp, by simp, by simp, by simp⟩
  case addReg | subReg | shr | subnReg | shl =>
    exact ⟨_, rfl, .inr ⟨by simp, by simp, by simp, by simp, by simp⟩⟩
  all_goals exact ⟨_, rfl, .inr ⟨rfl, rfl, rfl, rfl, rfl⟩⟩

/-- No instruction stops the machine. -/
theorem exec_next (i : Instr) (s : State) : ∃ t, exec i s = .next t :=
  (exec_raised_or_completed i s).imp fun _ h => h.1

/-- The same, of a next state. -/
theorem exec_inversion {i : Instr} {s t : State} (h : exec i s = .next t) : Raised i s t ∨ Completed s t := by
  obtain ⟨u, hu, hc⟩ := exec_raised_or_completed i s
  rw [h] at hu
  cases hu
  exact hc

end Sys2Proof.Machine
end

