-- ==== Sys2Proof/Laws/PerInstr.lean ====
section
/-! SUPPORT. Family RowMatch: the word of an instruction meets its row of spec/opcode_table.json, its match on its
mask (30_encoding.md R311, R320 to R323). -/

namespace Sys2Proof.Laws.RowMatch

/-- Every strictly well-formed instruction's word carries its row's match on its row's mask. -/
def Statement (i : Instr) : Prop := i.wf true = true → encode i &&& i.tableRow.2 = i.tableRow.1

/-! ### The four masks of the table, as digits -/

theorem and_F000 (w : Word) : (w &&& 0xF000#16).toNat = w.toNat / 4096 * 4096 := by
  have h : w &&& 0xF000#16 = (w >>> 12) <<< 12 := by
    apply BitVec.eq_of_getLsbD_eq
    intro i hi
    interval_cases i <;> simp
  have := w.isLt
  rw [h, BitVec.toNat_shiftLeft, BitVec.toNat_ushiftRight, Nat.shiftLeft_eq, Nat.shiftRight_eq_div_pow]
  omega

theorem and_low (w : Word) (k : Nat) (hk : k ≤ 8) :
    (w &&& BitVec.ofNat 16 (0xF000 + (2 ^ k - 1))).toNat = w.toNat / 4096 * 4096 + w.toNat % 2 ^ k := by
  have hdisj : (w &&& 0xF000#16) &&& (w &&& BitVec.ofNat 16 (2 ^ k - 1)) = 0#16 := by
    interval_cases k <;> (rw [show ∀ a b : Word, (w &&& a) &&& (w &&& b) = w &&& (a &&& b) by
      intro a b; ext i; simp only [BitVec.getElem_and]; cases w[i] <;> rfl]; simp)
  have hsum : w &&& BitVec.ofNat 16 (0xF000 + (2 ^ k - 1)) =
      (w &&& 0xF000#16) + (w &&& BitVec.ofNat 16 (2 ^ k - 1)) := by
    rw [BitVec.add_eq_or_of_and_eq_zero _ _ hdisj, ← BitVec.and_or_distrib_left]
    interval_cases k <;> rfl
  have hlow : (w &&& BitVec.ofNat 16 (2 ^ k - 1)).toNat = w.toNat % 2 ^ k := by
    rw [BitVec.toNat_and, BitVec.toNat_ofNat, Nat.mod_eq_of_lt (by interval_cases k <;> decide),
      Nat.and_two_pow_sub_one_eq_mod]
  rw [hsum, BitVec.toNat_add, and_F000, hlow]
  have := w.isLt
  interval_cases k <;> omega

theorem and_F00F (w : Word) : (w &&& 0xF00F#16).toNat = w.toNat / 4096 * 4096 + w.toNat % 16 := and_low w 4 (by decide)

theorem and_F0FF (w : Word) : (w &&& 0xF0FF#16).toNat = w.toNat / 4096 * 4096 + w.toNat % 256 := and_low w 8 (by decide)

/-! ### The three word forms meet their rows -/

theorem nnn_row {op : Nat} (_h : op < 16) (nnn : BitVec 12) :
    wordNNN op nnn &&& 0xF000 = BitVec.ofNat 16 (op * 4096) := by
  apply BitVec.eq_of_toNat_eq
  have := nnn.isLt
  rw [show (0xF000 : Word) = 0xF000#16 from rfl, and_F000]
  simp only [wordNNN, BitVec.toNat_ofNat]; omega

theorem xnn_row {op : Nat} (_h : op < 16) (x : Nibble) (nn : Byte) :
    wordXNN op x nn &&& 0xF000 = BitVec.ofNat 16 (op * 4096) := by
  apply BitVec.eq_of_toNat_eq
  have := nn.isLt
  rw [show (0xF000 : Word) = 0xF000#16 from rfl, and_F000]
  simp only [wordXNN, BitVec.toNat_ofNat]; omega

theorem xnn_low_row {op : Nat} (_h : op < 16) (x : Nibble) (nn : Byte) :
    wordXNN op x nn &&& 0xF0FF = BitVec.ofNat 16 (op * 4096 + nn.toNat) := by
  apply BitVec.eq_of_toNat_eq
  have := nn.isLt
  rw [show (0xF0FF : Word) = 0xF0FF#16 from rfl, and_F0FF]
  simp only [wordXNN, BitVec.toNat_ofNat]; omega

theorem xyn_row {op : Nat} (_h : op < 16) (x y n : Nibble) :
    wordXYN op x y n &&& 0xF000 = BitVec.ofNat 16 (op * 4096) := by
  apply BitVec.eq_of_toNat_eq
  rw [show (0xF000 : Word) = 0xF000#16 from rfl, and_F000]
  simp only [wordXYN, BitVec.toNat_ofNat]; omega

theorem xyn_low_row {op : Nat} (_h : op < 16) (x y n : Nibble) :
    wordXYN op x y n &&& 0xF00F = BitVec.ofNat 16 (op * 4096 + n.val) := by
  apply BitVec.eq_of_toNat_eq
  rw [show (0xF00F : Word) = 0xF00F#16 from rfl, and_F00F]
  simp only [wordXYN, BitVec.toNat_ofNat]; omega

/-! ### One lemma per instruction -/

theorem cls (d : Nibble) : Statement (.cls d) := by
  intro h
  obtain rfl : d = 0 := by simpa [Instr.wf] using h
  rfl

theorem ret (d : Nibble) : Statement (.ret d) := by
  intro h
  obtain rfl : d = 0 := by simpa [Instr.wf] using h
  rfl

theorem jp (nnn : BitVec 12) : Statement (.jp nnn) := fun _ => nnn_row (by decide) nnn

theorem call (nnn : BitVec 12) : Statement (.call nnn) := fun _ => nnn_row (by decide) nnn

theorem seImm (x : Reg) (nn : Byte) : Statement (.seImm x nn) := fun _ => xnn_row (by decide) x nn

theorem sneImm (x : Reg) (nn : Byte) : Statement (.sneImm x nn) := fun _ => xnn_row (by decide) x nn

theorem seReg (x y : Reg) (d : Nibble) : Statement (.seReg x y d) := by
  intro h
  obtain rfl : d = 0 := by simpa [Instr.wf] using h
  exact xyn_low_row (by decide) x y 0

theorem ldImm (x : Reg) (nn : Byte) : Statement (.ldImm x nn) := fun _ => xnn_row (by decide) x nn

theorem addImm (x : Reg) (nn : Byte) : Statement (.addImm x nn) := fun _ => xnn_row (by decide) x nn

theorem ldReg (x y : Reg) : Statement (.ldReg x y) := fun _ => xyn_low_row (by decide) x y _

theorem orReg (x y : Reg) : Statement (.orReg x y) := fun _ => xyn_low_row (by decide) x y _

theorem andReg (x y : Reg) : Statement (.andReg x y) := fun _ => xyn_low_row (by decide) x y _

theorem xorReg (x y : Reg) : Statement (.xorReg x y) := fun _ => xyn_low_row (by decide) x y _

theorem addReg (x y : Reg) : Statement (.addReg x y) := fun _ => xyn_low_row (by decide) x y _

theorem subReg (x y : Reg) : Statement (.subReg x y) := fun _ => xyn_low_row (by decide) x y _

theorem shr (x : Reg) (y : Nibble) : Statement (.shr x y) := fun _ => xyn_low_row (by decide) x y _

theorem subnReg (x y : Reg) : Statement (.subnReg x y) := fun _ => xyn_low_row (by decide) x y _

theorem shl (x : Reg) (y : Nibble) : Statement (.shl x y) := fun _ => xyn_low_row (by decide) x y _

theorem sneReg (x y : Reg) (d : Nibble) : Statement (.sneReg x y d) := by
  intro h
  obtain rfl : d = 0 := by simpa [Instr.wf] using h
  exact xyn_low_row (by decide) x y 0

theorem ldI (nnn : BitVec 12) : Statement (.ldI nnn) := fun _ => nnn_row (by decide) nnn

theorem jpV0 (nnn : BitVec 12) : Statement (.jpV0 nnn) := fun _ => nnn_row (by decide) nnn

theorem rnd (x : Reg) (nn : Byte) : Statement (.rnd x nn) := fun _ => xnn_row (by decide) x nn

theorem drw (x y : Reg) (n : Nibble) : Statement (.drw x y n) := fun _ => xyn_row (by decide) x y n

theorem skp (x : Reg) : Statement (.skp x) := fun _ => xnn_low_row (by decide) x _

theorem sknp (x : Reg) : Statement (.sknp x) := fun _ => xnn_low_row (by decide) x _

theorem ldVxDt (x : Reg) : Statement (.ldVxDt x) := fun _ => xnn_low_row (by decide) x _

theorem ldVxKey (x : Reg) : Statement (.ldVxKey x) := fun _ => xnn_low_row (by decide) x _

theorem ldDtVx (x : Reg) : Statement (.ldDtVx x) := fun _ => xnn_low_row (by decide) x _

theorem ldStVx (x : Reg) : Statement (.ldStVx x) := fun _ => xnn_low_row (by decide) x _

theorem addI (x : Reg) : Statement (.addI x) := fun _ => xnn_low_row (by decide) x _

theorem ldF (x : Reg) : Statement (.ldF x) := fun _ => xnn_low_row (by decide) x _

theorem ldB (x : Reg) : Statement (.ldB x) := fun _ => xnn_low_row (by decide) x _

theorem store (x : Reg) : Statement (.store x) := fun _ => xnn_low_row (by decide) x _

theorem load (x : Reg) : Statement (.load x) := fun _ => xnn_low_row (by decide) x _

end Sys2Proof.Laws.RowMatch
end

