-- ==== Sys2Proof/Laws/Step.lean ====
section
/-! SUPPORT. Said once of a step: what each agent's unit can answer, what becomes of memory, and the one induction
every invariant goes through. -/

namespace Sys2Proof.Machine

/-! ### Instructions and memory -/

/-- A property that survives a fault record, and holds of the completed state when the check passes. -/
theorem guarded_elim {P : State → Prop} {check : Option Cause} {w : Word} {s d t : State}
    (hg : guarded check w s d = .next t) (hr : ∀ c w, P (raise c w s)) (hd : check = none → P d) : P t := by
  rcases guarded_cases check w s d with ⟨hc, hg'⟩ | ⟨c, -, hg'⟩
  · rw [hg'] at hg; cases hg; exact hd hc
  · rw [hg'] at hg; cases hg; exact hr ..

/-- `t`'s memory is `s`'s, or `s`'s after one write of bytes that can all be written. -/
def MemoryWritten (s t : State) : Prop :=
  t.Mem = s.Mem ∨ ∃ a bs, (∀ k, k < bs.length → Writable s (a + k)) ∧ t.Mem = (s.writeBytes a bs).Mem

/-- No instruction changes the parameters, and it writes memory only where R206 lets it. -/
theorem exec_memory {i : Instr} {s t : State} (h : exec i s = .next t) : t.cfg = s.cfg ∧ MemoryWritten s t := by
  refine ⟨?_, ?_⟩
  · rcases exec_inversion h with ⟨c, rfl⟩ | hc
    · rfl
    · exact hc.2.2.1
  have writable : ∀ {a n}, firstFailing (checkWrite s.cfg.glyphWritePolicy) a n = none → ∀ k, k < n → Writable s (a + k) :=
    fun h k hk => checkWrite_eq_none_iff.mp (firstFailing_eq_none_iff.mp h k hk)
  have gate : ∀ {check : Option Cause} {d : State}, guarded check (encode i) s d = .next t →
      (check = none → MemoryWritten s d) → MemoryWritten s t :=
    fun hg hd => guarded_elim hg (fun _ _ => .inl rfl) hd
  cases i
  case drw x y n =>
    refine gate h fun _ => .inl ?_
    show (drawSprite x y n.val s).Mem = s.Mem
    rw [(drawSprite_onlyDrawn x y n.val s).1]
  case ldVxKey x =>
    simp only [exec, execLdVxKey] at h
    split at h <;> (cases h; exact .inl rfl)
  case ret | jpV0 | skp | sknp | load => exact gate h fun _ => .inl (by simp)
  case call nnn =>
    exact gate h fun hc =>
      .inr ⟨_, _, fun k hk => writable (Option.or_eq_none_iff.mp hc).2 k (by simpa using hk), rfl⟩
  case ldB x => exact gate h fun hc => .inr ⟨_, _, fun k hk => writable hc k (by simpa [decimalDigits] using hk), rfl⟩
  case store x => exact gate h fun hc => .inr ⟨_, _, fun k hk => writable hc k (by simpa [lowRegisters] using hk), rfl⟩
  case addReg | subReg | shr | subnReg | shl => cases h; exact .inl (by simp)
  all_goals (cases h; exact .inl rfl)

/-! ### The CPU agent -/

/-- On a running machine with no fault a CPU step is its fetch, then what R630 does with the word. -/
theorem cpuStep_running {s : State} (hp : s.phase = .running) (hf : s.fault = none) :
    cpuStep s = match fetch s with | .error c => .next (raise c none s) | .ok w => runWord w s := by
  cases s; simp only at hp hf; subst hp hf; rfl

/-- With a fault set a CPU step stops with its record, in every phase (R632). -/
theorem cpuStep_faulted {s : State} {r : FaultRecord} (hf : s.fault = some r) : cpuStep s = .fault (.recorded r) := by
  simp [cpuStep, hf]

/-- Everything a CPU step that answers a next state can do: it records a failed fetch, records an unknown word, or
runs the decoded instruction. -/
theorem cpuStep_inversion {s t : State} (h : cpuStep s = .next t) :
    s.phase = .running ∧ s.fault = none ∧
    ((∃ c, fetch s = .error c ∧ t = raise c none s) ∨
     (∃ w, fetch s = .ok w ∧ (∀ i, decode s.cfg.decodeStrict w ≠ .ok i) ∧
       t = raise ⟨.unknownInstruction, w.toNat⟩ (some w) s) ∨
     (∃ w i, fetch s = .ok w ∧ decode s.cfg.decodeStrict w = .ok i ∧ exec i s = .next t)) := by
  cases hf : s.fault with
  | some r => simp [cpuStep, hf] at h
  | none =>
    cases hp : s.phase with
    | created => simp [cpuStep, hp, hf] at h
    | ended => simp [cpuStep, hp, hf] at h
    | running =>
      refine ⟨rfl, rfl, ?_⟩
      rw [cpuStep_running hp hf] at h
      cases hw : fetch s with
      | error c => rw [hw] at h; cases h; exact .inl ⟨c, rfl, rfl⟩
      | ok w =>
        simp only [hw, runWord] at h
        cases hd : decode s.cfg.decodeStrict w with
        | error e => simp only [hd] at h; cases h; exact .inr (.inl ⟨w, rfl, by simp [hd], rfl⟩)
        | ok i => simp only [hd] at h; exact .inr (.inr ⟨w, i, rfl, hd, h⟩)

/-! ### The other agents -/

/-- Everything a host operation can leave. -/
theorem hostCall_cases (op : HostOp) (s : State) :
    (∃ k b, (hostCall op s).1 = s.setKey k b ∧ s.phase = .running ∧ s.fault = none) ∨ (hostCall op s).1 = s ∨
    (hostCall op s).1 = { s with changed := false } ∨ (hostCall op s).1 = tick s ∨
    (hostCall op s).1 = { s with phase := .ended } ∨ ∃ bytes, op = .load bytes ∧ (hostCall op s).1 = loadImage bytes s := by
  have keys : ∀ k b, (∃ k' b', (setKeyOp k b s).1 = s.setKey k' b' ∧ s.phase = .running ∧ s.fault = none) ∨
      (setKeyOp k b s).1 = s := by
    intro k b
    unfold setKeyOp
    split
    · split
      · rename_i h; simp [agentsMove] at h; exact .inl ⟨_, _, rfl, h⟩
      · exact .inr rfl
    · exact .inr rfl
  unfold hostCall
  split
  · exact .inr (.inl rfl)
  · cases op with
    | press k => exact (keys k true).imp_right .inl
    | release k => exact (keys k false).imp_right .inl
    | tickTimers => simp only []; split <;> simp
    | load bytes => exact .inr (.inr (.inr (.inr (.inr ⟨_, rfl, rfl⟩))))
    | _ => simp

/-- What a successful load leaves (R702). -/
theorem loadImage_of_le {bytes : List Byte} {s : State} (h : bytes.length ≤ 3584) :
    loadImage bytes s =
      { s with
        Mem := Memory.image s.cfg.glyphTable programOrigin bytes, V := Vector.replicate 16 0, I := 0, DT := 0, ST := 0
        Key := Vector.replicate 16 false, Pix := Vector.replicate 64 (Vector.replicate 32 false)
        changed := false, halted := false, SP := s.cfg.stackBase, pc := BitVec.ofNat 16 programOrigin
        fault := none, phase := .running } :=
  if_neg (by simp only [maxProgramSize]; omega)

/-- What a refused load leaves (R702). -/
theorem loadImage_of_lt {bytes : List Byte} {s : State} (h : 3584 < bytes.length) :
    loadImage bytes s = raise ⟨.loadError, bytes.length⟩ none s := if_pos h

/-! ### The step -/

theorem step_eq (s : State) : step s = runUnit (nextUnit s) s.takeUnit := rfl

theorem step_of_cpu {s : State} (h : nextUnit s = .cpu) : step s = cpuStep s.takeUnit := by
  simp [step_eq, h, runUnit]

/-- A step that answers a next state is a CPU step, a tick or a host operation. -/
theorem step_inversion {s t : State} (h : step s = .next t) :
    cpuStep s.takeUnit = .next t ∨ t = tick s.takeUnit ∨ ∃ op, t = (hostCall op s.takeUnit).1 := by
  rw [step_eq] at h
  cases hu : nextUnit s with
  | cpu => rw [hu] at h; exact .inl h
  | timer =>
    simp only [hu, runUnit] at h
    split at h
    · cases h
    · cases h; exact .inr (.inl rfl)
  | host op =>
    simp only [hu, runUnit] at h
    split at h
    · cases h
    · cases h; exact .inr (.inr ⟨op, rfl⟩)

/-- An invariant holds of every next state once it survives the unit's removal, a fault record, an executed
instruction, a tick, a key, the changed flag, the shutdown and a load. -/
theorem step_preserves {Inv : State → Prop}
    (take : ∀ s, Inv s → Inv s.takeUnit)
    (fault : ∀ s c w, Inv s → Inv (raise c w s))
    (instr : ∀ i w s t, Inv s → s.phase = .running → s.fault = none → fetch s = .ok w →
      decode s.cfg.decodeStrict w = .ok i → exec i s = .next t → Inv t)
    (timers : ∀ s d e, Inv s → Inv { s with DT := d, ST := e })
    (key : ∀ s k b, Inv s → s.phase = .running → s.fault = none → Inv (s.setKey k b))
    (changed : ∀ s b, Inv s → Inv { s with changed := b })
    (ended : ∀ s, Inv s → Inv { s with phase := .ended })
    (load : ∀ s bytes, Inv s → bytes.length ≤ 3584 → Inv (loadImage bytes s)) :
    ∀ s t, Inv s → step s = .next t → Inv t := by
  intro s t hs h
  have hu := take s hs
  have ticked : ∀ u, Inv u → Inv (tick u) := fun u hu => by
    unfold tick
    split
    · exact timers _ _ _ hu
    · exact hu
  rcases step_inversion h with h | rfl | ⟨op, rfl⟩
  · obtain ⟨hp, hf, ⟨c, -, rfl⟩ | ⟨w, -, -, rfl⟩ | ⟨w, i, hw, hd, hx⟩⟩ := cpuStep_inversion h
    · exact fault _ _ _ hu
    · exact fault _ _ _ hu
    · exact instr i w _ t hu hp hf hw hd hx
  · exact ticked _ hu
  · rcases hostCall_cases op s.takeUnit with ⟨k, b, h, hp, hf⟩ | h | h | h | h | ⟨bytes, -, h⟩ <;> rw [h]
    · exact key _ _ _ hu hp hf
    · exact hu
    · exact changed _ _ hu
    · exact ticked _ hu
    · exact ended _ hu
    · by_cases hl : bytes.length ≤ 3584
      · exact load _ _ hu hl
      · rw [loadImage_of_lt (by omega)]; exact fault _ _ _ hu

end Sys2Proof.Machine
end

