-- ==== Sys2Proof/Tests/Slice0.lean ====
section
/-! SUPPORT. Tests: the smoke test of WellFormed, words written out from the spec's encodings, the spec's own
vectors (95_test_vectors.md, by their ids), and for every statement with hypotheses a state that meets them. -/

namespace Sys2Proof.Tests

open Sys2Proof Sys2Proof.Machine

-- The tests by kernel evaluation run one after another: side by side their threads fill the memory.
set_option Elab.async false

/-! ### WellFormed: one ill-formed term for each check (R330) -/

theorem test_wf_refuses : Instr.wf true (.cls 1) = false ∧ Instr.wf true (.ret 15) = false ∧
    Instr.wf true (.seReg 0 0 1) = false ∧ Instr.wf true (.sneReg 1 2 8) = false := by decide

theorem test_wf_admits : Instr.wf true (.cls 0) = true ∧ Instr.wf false (.cls 15) = true ∧
    Instr.wf true (.shr 1 15) = true ∧ Instr.wf false (.seReg 0 0 1) = true := by decide

theorem test_config_wf_refuses : Config.wf { specConfig with stackCheck := .checked 0 } = false ∧
    Config.wf { specConfig with addrRegWidth := 12 } = false ∧
    Config.wf { specConfig with addrRegWidth := 13, stackBase := 0x2000 } = false := by decide

theorem test_config_wf_admits : Config.wf specConfig = true ∧ Config.wf { specConfig with addrRegWidth := 13 } = true := by
  decide

/-! ### Words written out from the rows of the opcode table -/

theorem test_decode_display_and_control :
    decode true 0b0000000011100000 = .ok (.cls 0) ∧ decode true 0b0000000011101110 = .ok (.ret 0) ∧
    decode true 0b0001001000110100 = .ok (.jp 0x234) ∧ decode true 0b0010111111111111 = .ok (.call 0xFFF) ∧
    decode true 0b1011000000000001 = .ok (.jpV0 1) ∧ decode true 0b1101000100100011 = .ok (.drw 1 2 3) := by decide

theorem test_decode_skips :
    decode true 0b0011001001011010 = .ok (.seImm 2 0x5A) ∧ decode true 0b0100111100000001 = .ok (.sneImm 15 1) ∧
    decode true 0b0101000100100000 = .ok (.seReg 1 2 0) ∧ decode true 0b1001101010110000 = .ok (.sneReg 10 11 0) ∧
    decode true 0b1110001110011110 = .ok (.skp 3) ∧ decode true 0b1110001110100001 = .ok (.sknp 3) := by decide

theorem test_decode_alu :
    decode true 0b0110101001000010 = .ok (.ldImm 10 0x42) ∧ decode true 0b0111000000000001 = .ok (.addImm 0 1) ∧
    decode true 0b1000000100100000 = .ok (.ldReg 1 2) ∧ decode true 0b1000000100100001 = .ok (.orReg 1 2) ∧
    decode true 0b1000000100100010 = .ok (.andReg 1 2) ∧ decode true 0b1000000100100011 = .ok (.xorReg 1 2) ∧
    decode true 0b1000000100100100 = .ok (.addReg 1 2) ∧ decode true 0b1000000100100101 = .ok (.subReg 1 2) ∧
    decode true 0b1000000100100110 = .ok (.shr 1 2) ∧ decode true 0b1000000100100111 = .ok (.subnReg 1 2) ∧
    decode true 0b1000000100101110 = .ok (.shl 1 2) ∧ decode true 0b1100001100001111 = .ok (.rnd 3 0x0F) := by decide

theorem test_decode_index_memory_timers :
    decode true 0b1010001011110000 = .ok (.ldI 0x2F0) ∧ decode true 0b1111001000011110 = .ok (.addI 2) ∧
    decode true 0b1111000000101001 = .ok (.ldF 0) ∧ decode true 0b1111010000110011 = .ok (.ldB 4) ∧
    decode true 0b1111001001010101 = .ok (.store 2) ∧ decode true 0b1111101001100101 = .ok (.load 10) ∧
    decode true 0b1111010100000111 = .ok (.ldVxDt 5) ∧ decode true 0b1111010100001010 = .ok (.ldVxKey 5) ∧
    decode true 0b1111011000010101 = .ok (.ldDtVx 6) ∧ decode true 0b1111011100011000 = .ok (.ldStVx 7) := by decide

/-- T3 and T4 under DECODE_STRICT = false. -/
theorem test_decode_lenient : decode false 0x01E0 = .ok (.cls 1) ∧ decode false 0x5121 = .ok (.seReg 1 2 1) := by
  decide

/-- T1 to T8. -/
theorem test_decode_unknown :
    [0x0000, 0x0123, 0x01E0, 0x5121, 0x9AB3, 0x8018, 0x801F, 0xE09F, 0xF000, 0xF0FF].all
      (fun w : Word => decode true w == .error (.unknownInstruction w)) = true := by decide

/-- Bytes are read high byte first (R208); one byte is no instruction. -/
theorem test_decode_bytes : decodeBytes true [0x60, 0x12, 0xAB] = .ok (.ldImm 0 0x12, [0xAB]) ∧
    decodeBytes true [0x60] = .error .truncated ∧ decodeTableWord 16 0x6012 = some (.ldImm 0 0x12) := by decide

/-! ### A small state, and one step on it -/

/-- The state after a load with some registers, I and some bytes of memory set. -/
def stateWith (V : List (Reg × Byte)) (i : Word) (mem : List (Nat × Byte)) : State :=
  mem.foldl (fun s c => s.writeBytes c.1 [c.2]) (V.foldl (fun s p => s.setV p.1 p.2) { State.reset with I := i })

/-- The step that runs the word `w` at `s`'s pc answers a next state with the property `p`. -/
def runs (w : Nat) (s : State) (p : State → Bool) : Bool :=
  match step (s.withFetchWord 16 w) with
  | .next t => p t
  | _ => false

/-- The step records this fault with the step's own pc and word, and leaves the registers, pc, SP, I and memory
(R604). -/
def faultsWith (w : Nat) (s : State) (kind : FaultKind) (info : BitVec 32) : Bool :=
  let s' := s.withFetchWord 16 w
  runs w s fun t => t.fault == some ⟨kind, info, s'.pc, some (BitVec.ofNat 16 w)⟩ && t.V == s'.V && t.pc == s'.pc &&
    t.SP == s'.SP && t.I == s'.I && t.Mem == s'.Mem && t.changed == s'.changed

/-- Exactly the pixels `on` are set among `on` and `off`. -/
def shows (t : State) (on off : List (Fin 64 × Fin 32)) : Bool :=
  on.all (fun p => t.pixel p.1 p.2) && off.all fun p => !t.pixel p.1 p.2

/-! ### Vectors (95_test_vectors.md) -/

/-- T20. -/
theorem test_cls : runs 0x00E0 ((State.reset.setPixel 3 4 true).setPixel 63 31 true)
    (fun t => shows t [] [(3, 4), (63, 31), (0, 0)] && t.changed && t.pc == 0x202) = true := by decide +kernel

/-- T23, horizontal wrap. -/
theorem test_drw_wraps : runs 0xD011 (stateWith [(0, 62)] 0x300 [(0x300, 0xFF)])
    (fun t => shows t [(62, 0), (63, 0), (0, 0), (5, 0)] [(61, 0), (6, 0), (62, 1), (0, 1)] && t.getV VF == 0) = true := by
  decide +kernel

/-- T31, VF as a coordinate, `live` then `latched`. -/
theorem test_drw_vf_coordinate :
    let s := stateWith [(VF, 10)] 0x300 [(0x300, 0x80)]
    runs 0xDF01 s (fun t => shows t [(0, 0)] [(10, 0)]) = true ∧
    runs 0xDF01 { s with cfg := { s.cfg with drawOperandRead := .latched } } (fun t => shows t [(10, 0)] [(0, 0)]) = true := by
  decide +kernel

/-- T36, T38 and T39c. -/
theorem test_ret : runs 0x00EE { stateWith [] 0 [(0xFA2, 0x02), (0xFA3, 0x04)] with SP := 0xFA2 }
      (fun t => t.pc == 0x206 && t.SP == 0xFA0 && t.read 0xFA3 == 0x04) = true ∧
    faultsWith 0x00EE { stateWith [] 0 [(0xFA2, 0x0F), (0xFA3, 0xFE)] with SP := 0xFA2 } .outOfBounds 0x1000 = true ∧
    faultsWith 0x00EE { State.reset with cfg := { specConfig with stackCheck := .checked 16 } } .stackUnderflow 0xFA0 = true := by
  decide +kernel

/-- T34. -/
theorem test_jp : runs 0x1234 State.reset (fun t => t.pc == 0x234) = true := by decide +kernel

/-- T35, at pc = 0x204. -/
theorem test_call : runs 0x2300 { State.reset with pc := 0x204 } (fun t => t.pc == 0x300 && t.SP == 0xFA2 &&
    t.read 0xFA2 == 0x02 && t.read 0xFA3 == 0x04) = true := by decide +kernel

/-- T39, T39a and T39b. -/
theorem test_call_faults : faultsWith 0x2400 { State.reset with SP := 0xFFE } .outOfBounds 0x1000 = true ∧
    faultsWith 0x2400 { State.reset with SP := 0xFC0, cfg := { specConfig with stackCheck := .checked 16 } }
      .stackOverflow 0xFC0 = true ∧
    faultsWith 0x2400 { State.reset with SP := 0 } .protectedWrite 2 = true := by decide +kernel

/-- T39e and T39f. -/
theorem test_jpV0 : runs 0xB300 (stateWith [(0, 0x10)] 0 []) (fun t => t.pc == 0x310) = true ∧
    faultsWith 0xBF10 (stateWith [(0, 0xFF)] 0 []) .outOfBounds 0x100F = true := by decide +kernel

/-- T40 and T41. -/
theorem test_seImm : runs 0x325A (stateWith [(2, 0x5A)] 0 []) (fun t => t.pc == 0x204) = true ∧
    runs 0x325B (stateWith [(2, 0x5A)] 0 []) (fun t => t.pc == 0x202) = true := by decide +kernel

/-- T42 and T43. -/
theorem test_sneImm : runs 0x425A (stateWith [(2, 0x5A)] 0 []) (fun t => t.pc == 0x202) = true ∧
    runs 0x4200 (stateWith [(2, 0x5A)] 0 []) (fun t => t.pc == 0x204) = true := by decide +kernel

/-- T44 and T45. -/
theorem test_seReg : runs 0x5120 (stateWith [(1, 7), (2, 7)] 0 []) (fun t => t.pc == 0x204) = true ∧
    runs 0x5120 (stateWith [(1, 7), (2, 8)] 0 []) (fun t => t.pc == 0x202) = true := by decide +kernel

/-- T47 and T48. -/
theorem test_sneReg : runs 0x9120 (stateWith [(1, 7), (2, 8)] 0 []) (fun t => t.pc == 0x204) = true ∧
    runs 0x9330 (stateWith [(3, 7)] 0 []) (fun t => t.pc == 0x202) = true := by decide +kernel

/-- T49, T50 and T53. -/
theorem test_skp : runs 0xE39E ((stateWith [(3, 10)] 0 []).setKey 10 true) (fun t => t.pc == 0x204) = true ∧
    runs 0xE39E (stateWith [(3, 10)] 0 []) (fun t => t.pc == 0x202) = true ∧
    faultsWith 0xE39E (stateWith [(3, 16)] 0 []) .invalidKey 16 = true := by decide +kernel

/-- T51, T52 and T53. -/
theorem test_sknp : runs 0xE3A1 (stateWith [(3, 10)] 0 []) (fun t => t.pc == 0x204) = true ∧
    runs 0xE3A1 ((stateWith [(3, 10)] 0 []).setKey 10 true) (fun t => t.pc == 0x202) = true ∧
    faultsWith 0xE3A1 (stateWith [(3, 16)] 0 []) .invalidKey 16 = true := by decide +kernel

/-- T60. -/
theorem test_ldImm : runs 0x6A42 State.reset (fun t => t.getV 10 == 0x42) = true := by decide +kernel

/-- T61 and T62. -/
theorem test_addImm : runs 0x7001 (stateWith [(0, 0xFF)] 0 []) (fun t => t.getV 0 == 0 && t.getV VF == 0) = true ∧
    runs 0x7F01 (stateWith [(VF, 0xFF)] 0 []) (fun t => t.getV VF == 0) = true := by decide +kernel

/-- T63. -/
theorem test_ldReg : runs 0x8010 (stateWith [(1, 0x42)] 0 []) (fun t => t.getV 0 == 0x42) = true := by decide +kernel

/-- T64: VF is kept. -/
theorem test_orReg : runs 0x8011 (stateWith [(0, 0x0F), (1, 0xF0), (VF, 5)] 0 [])
    (fun t => t.getV 0 == 0xFF && t.getV VF == 5) = true := by decide +kernel

/-- T65. -/
theorem test_andReg : runs 0x8012 (stateWith [(0, 0x3C), (1, 0x0F)] 0 []) (fun t => t.getV 0 == 0x0C) = true := by
  decide +kernel

/-- T66. -/
theorem test_xorReg : runs 0x8013 (stateWith [(0, 0x3C), (1, 0x0F)] 0 []) (fun t => t.getV 0 == 0x33) = true := by
  decide +kernel

/-- T68 and T69. -/
theorem test_addReg : runs 0x8014 (stateWith [(0, 0x80), (1, 0x80)] 0 []) (fun t => t.getV 0 == 0 && t.getV VF == 1) = true ∧
    runs 0x8014 (stateWith [(0, 0xFE), (1, 1)] 0 []) (fun t => t.getV 0 == 0xFF && t.getV VF == 0) = true := by
  decide +kernel

/-- T70, both values of VF_ORDER. -/
theorem test_addReg_vf :
    let s := stateWith [(VF, 0x80), (1, 0x90)] 0 []
    runs 0x8F14 s (fun t => t.getV VF == 1) = true ∧
    runs 0x8F14 { s with cfg := { s.cfg with vfOrder := .resultLast } } (fun t => t.getV VF == 0x10) = true := by
  decide +kernel

/-- W3a and T72. -/
theorem test_subReg : runs 0x8015 (stateWith [(0, 10), (1, 20)] 0 []) (fun t => t.getV 0 == 246 && t.getV VF == 0) = true ∧
    runs 0x8015 (stateWith [(0, 9), (1, 9)] 0 []) (fun t => t.getV 0 == 0 && t.getV VF == 1) = true := by decide +kernel

/-- T74. -/
theorem test_shr : runs 0x8016 (stateWith [(0, 5), (1, 0xFF)] 0 []) (fun t => t.getV 0 == 2 && t.getV VF == 1) = true := by
  decide +kernel

/-- T77 and T79. -/
theorem test_subnReg : runs 0x8017 (stateWith [(0, 20), (1, 10)] 0 []) (fun t => t.getV 0 == 246 && t.getV VF == 0) = true ∧
    runs 0x8017 (stateWith [(0, 7), (1, 7)] 0 []) (fun t => t.getV 0 == 0 && t.getV VF == 1) = true := by decide +kernel

/-- T80 and T81. -/
theorem test_shl : runs 0x801E (stateWith [(0, 0x81)] 0 []) (fun t => t.getV 0 == 2 && t.getV VF == 1) = true ∧
    runs 0x800E (stateWith [(0, 0x7F)] 0 []) (fun t => t.getV 0 == 0xFE && t.getV VF == 0) = true := by decide +kernel

/-- T84, a given draw; T85, whatever the draw is. -/
theorem test_rnd : (rndWithDraw 0xA7 0 0x0F State.reset).getV 0 = 0x07 ∧
    ∀ draw, (rndWithDraw draw 0 0 State.reset).getV 0 = 0 := by
  refine ⟨by decide, fun draw => ?_⟩
  show (State.reset.setV 0 (draw &&& 0)).getV 0 = 0
  rw [State.getV_setV_same]
  exact BitVec.and_zero

/-- T90. -/
theorem test_ldI : runs 0xA2F0 State.reset (fun t => t.I == 0x2F0) = true := by decide +kernel

/-- T92 and T93. -/
theorem test_addI : runs 0xF01E (stateWith [(0, 1)] 0xFFF []) (fun t => t.I == 0x1000 && t.getV VF == 0) = true ∧
    runs 0xF01E (stateWith [(0, 2)] 0xFFFF []) (fun t => t.I == 1) = true := by decide +kernel

/-- ADDR_REG_WIDTH = 13 (D4): Fx1E wraps at 0x2000, and a pop from SP = 0 leaves 0x1FFE. -/
theorem test_addr_reg_width :
    let s := { stateWith [(0, 2)] 0x1FFF [] with SP := 0, cfg := { specConfig with addrRegWidth := 13 } }
    runs 0xF01E s (fun t => t.I == 1) = true ∧
    runs 0x00EE { s with cfg := { s.cfg with glyphTable := Vector.replicate 80 0 } } (fun t => t.SP == 0x1FFE) = true := by
  decide +kernel

/-- T94 and T96, both values of FX29_MASK. -/
theorem test_ldF : runs 0xF029 (stateWith [(0, 0xA)] 0 []) (fun t => t.I == 0x32) = true ∧
    runs 0xF029 (stateWith [(0, 0x10)] 0 []) (fun t => t.I == 0x50) = true ∧
    runs 0xF029 { stateWith [(0, 0x10)] 0 [] with cfg := { specConfig with fx29Mask := true } } (fun t => t.I == 0) = true := by
  decide +kernel

/-- W9a. -/
theorem test_ldB : runs 0xF033 (stateWith [(0, 234)] 0x300 [])
    (fun t => t.read 0x300 == 2 && t.read 0x301 == 3 && t.read 0x302 == 4 && t.I == 0x300) = true := by decide +kernel

/-- T101 and T102. -/
theorem test_ldB_faults : faultsWith 0xF033 (stateWith [] 0xFFE []) .outOfBounds 0x1000 = true ∧
    faultsWith 0xF033 (stateWith [] 0x04E []) .protectedWrite 0x04E = true := by decide +kernel

/-- T103. -/
theorem test_store : runs 0xF255 (stateWith [(0, 1), (1, 2), (2, 3), (3, 4)] 0x300 [])
    (fun t => t.Mem == [(0x200, 0xF2), (0x201, 0x55), (0x300, 1), (0x301, 2), (0x302, 3)] && t.I == 0x300) = true := by
  decide +kernel

/-- T104 and T105. -/
theorem test_store_faults : faultsWith 0xF055 State.reset .protectedWrite 0 = true ∧
    faultsWith 0xF255 (stateWith [(0, 1)] 0xFFE []) .outOfBounds 0x1000 = true := by decide +kernel

/-- T107 and T108. -/
theorem test_load : runs 0xF265 (stateWith [(3, 9)] 0x300 [(0x300, 2), (0x301, 3), (0x302, 4), (0x303, 5)])
      (fun t => t.V.toList.take 4 == [2, 3, 4, 9] && t.I == 0x300) = true ∧
    runs 0xF465 State.reset (fun t => t.V.toList.take 6 == [0xF0, 0x90, 0x90, 0x90, 0xF0, 0]) = true := by decide +kernel

/-- T110. -/
theorem test_load_faults : faultsWith 0xF165 (stateWith [] 0xFFF []) .outOfBounds 0x1000 = true := by decide +kernel

/-- T120. -/
theorem test_ldVxDt : runs 0xF507 { State.reset with DT := 0x3C } (fun t => t.getV 5 == 0x3C) = true := by decide +kernel

/-- T123 and T124. -/
theorem test_ldVxKey : runs 0xF30A State.reset (fun t => t.halted && t.pc == 0x200 && t.getV 3 == 0) = true ∧
    runs 0xF00A ((State.reset.setKey 3 true).setKey 9 true)
      (fun t => t.getV 0 == 3 && t.pc == 0x202 && !t.halted) = true := by decide +kernel

/-- T121. -/
theorem test_ldDtVx : runs 0xF015 (stateWith [(0, 60)] 0 []) (fun t => t.DT == 60 && t.ST == 0) = true := by decide +kernel

/-- T122. -/
theorem test_ldStVx : runs 0xF118 (stateWith [(1, 5)] 0 []) (fun t => t.ST == 5 && t.DT == 0) = true := by decide +kernel

/-! ### The step, the timers and the host -/

/-- T1 and T9: the records of an unknown word and of a failed fetch. -/
theorem test_fetch_faults : faultsWith 0x0000 State.reset .unknownInstruction 0 = true ∧
    (match step { State.reset with pc := 0xFFF } with
      | .next t => t.fault == some ⟨.outOfBounds, 0x1000, 0xFFF, none⟩ && t.pc == 0xFFF
      | _ => false) = true := by decide +kernel

/-- T11: an odd pc. -/
theorem test_odd_pc : runs 0x6007 { State.reset with pc := 0x201 } (fun t => t.getV 0 == 7 && t.pc == 0x203) = true := by
  decide +kernel

/-- T128, T129 and T130. -/
theorem test_tick : (tick { State.reset with DT := 1, ST := 255, halted := true }) =
    { State.reset with DT := 0, ST := 254, halted := true } := rfl

/-- T141 and T149. -/
theorem test_press : hostCall (.press 16) State.reset = (State.reset, .refused) ∧
    (hostCall (.press 5) { State.reset with halted := true }).1.getKey 5 = true ∧
    cpuEnabled { State.reset with halted := true } = false ∧
    cpuEnabled (hostCall (.press 5) { State.reset with halted := true }).1 = true :=
  ⟨rfl, by decide, by decide, by decide⟩

/-- T146. -/
theorem test_load_image :
    let t := (hostCall (.load [0x60, 0x01]) (raise ⟨.invalidKey, 16⟩ none (stateWith [(1, 7)] 5 [(0x300, 1)]))).1
    t.fault = none ∧ t.pc = 0x200 ∧ t.SP = 0xFA0 ∧ t.getV 1 = 0 ∧ t.I = 0 ∧ t.Mem = [(0x200, 0x60), (0x201, 0x01)] := by
  decide +kernel

/-- R632 after a first load that is refused: step() returns the record, though no load succeeded (R702). -/
theorem test_step_after_refused_load :
    (let r : FaultRecord := ⟨.loadError, 3585, 0, none⟩
     stepCall { createdState specConfig with fault := some r } = ({ createdState specConfig with fault := some r }, .record (some r))) ∧
    stepCall (createdState specConfig) = (createdState specConfig, .refused) := ⟨rfl, rfl⟩

/-- The memory of the reset state is in canonical form and reads as after a load (R140). -/
theorem test_reset_memory : Memory.wf specConfig.glyphTable State.reset.Mem = true ∧ State.reset.read 0 = 0xF0 ∧
    State.reset.read 0x4F = 0x80 ∧ State.reset.read 0x50 = 0 ∧ State.reset.read 0xFFF = 0 := by decide

/-- A tick and a press that the agenda puts before the CPU's step (log 7). -/
theorem test_agenda_order :
    step { State.reset with DT := 2, agenda := [.timer, .host (.press 1)] } =
      .next { State.reset with DT := 1, agenda := [.host (.press 1)] } ∧
    (match step { State.reset with agenda := [.host (.press 1)] } with
      | .next t => t.getKey 1 && t.agenda == []
      | _ => false) = true := ⟨rfl, by decide⟩

/-! ### Witnesses: states that meet the hypotheses of the statements -/

/-- A machine whose word at pc is `w`. -/
def at200 (w : Nat) : State := State.reset.withFetchWord 16 w

theorem witness_step_runs : nextUnit (at200 0x6A42) = .cpu ∧ (at200 0x6A42).phase = .running ∧
    (at200 0x6A42).fault = none ∧ (at200 0x6A42).pc.toNat + 1 < 4096 ∧
    decode (at200 0x6A42).cfg.decodeStrict (BitVec.ofNat 16 (((at200 0x6A42).read (at200 0x6A42).pc.toNat).toNat * 256 +
      ((at200 0x6A42).read ((at200 0x6A42).pc.toNat + 1)).toNat)) = .ok (.ldImm 10 0x42) := by decide +kernel

/-- pc = 0x1000, pc = 0xFFF, and an unknown word at pc = 0xFFE. -/
theorem witness_fetch_and_decode_faults :
    (nextUnit State.reset = .cpu ∧ State.reset.phase = .running ∧ State.reset.fault = none) ∧
    4096 ≤ ({ State.reset with pc := 0x1000 } : State).pc.toNat ∧
    ({ State.reset with pc := 0xFFF } : State).pc.toNat = 0xFFF ∧
    ({ State.reset with pc := 0xFFE } : State).pc.toNat + 1 < 4096 ∧
    (0 : Word).toNat = (State.reset.read 0xFFE).toNat * 256 + (State.reset.read 0xFFF).toNat ∧
    decode specConfig.decodeStrict 0 = .error (.unknownInstruction 0) := by decide

/-- A step that records a fault, a recorded fault, and the largest image. -/
theorem witness_fault_is_precise_and_final :
    (∃ t, step State.reset = .next t ∧ t.fault ≠ none) ∧
    ((raise ⟨.invalidKey, 16⟩ none State.reset).fault ≠ none ∧
      nextUnit (raise ⟨.invalidKey, 16⟩ none State.reset) = .cpu) ∧
    (∃ u, unitEnabled u (raise ⟨.invalidKey, 16⟩ none State.reset) = true) ∧
    (List.replicate 3584 (0 : Byte)).length ≤ 3584 :=
  ⟨⟨_, rfl, by decide⟩, ⟨by decide, rfl⟩, ⟨.host .isHalted, by decide⟩, List.length_replicate.le⟩

theorem witness_waiting : WaitsAtKeyWait { at200 0xF30A with halted := true } ∧
    ({ at200 0xF30A with halted := true } : State).someKey = false ∧
    step { at200 0xF30A with halted := true } = .next { at200 0xF30A with halted := true } :=
  ⟨fun _ => ⟨3, by decide +kernel⟩, by decide +kernel, rfl⟩

theorem witness_step_operation : (∃ t, cpuStep (at200 0x6A42) = .next t) ∧
    ({ at200 0xF30A with halted := true } : State).halted = true := ⟨⟨_, rfl⟩, rfl⟩

/-- A call under `checked(1)` on an empty stack: it meets the hypotheses of the six step invariants and of
CallThenReturnRestores; the word at 0x300 is 00EE. -/
def callState : State :=
  { stateWith [] 0 [(0x200, 0x23), (0x300, 0x00), (0x301, 0xEE)] with cfg := { specConfig with stackCheck := .checked 1 } }

theorem witness_invariants : MemoryForm callState ∧ PcInRange callState ∧ GlyphsIntact callState ∧
    WaitsAtKeyWait callState ∧ StackInBounds callState ∧ StackFits callState.cfg ∧ AddressRegistersFit callState ∧
    ∃ t, step callState = .next t := by
  refine ⟨⟨by decide, by decide⟩, by unfold PcInRange; decide, fun _ _ => by decide +kernel, (fun h => by cases h),
    ?_, ?_, by unfold AddressRegistersFit; decide, ⟨_, rfl⟩⟩
  · intro _ _ depth _
    exact ⟨0, Nat.zero_le _, rfl⟩
  · intro depth h
    cases h
    decide

theorem witness_call_then_return : fetch callState = .ok (encode (.call 0x300)) ∧ ¬StackFull callState ∧
    Writable callState (pushAddr callState).toNat ∧ Writable callState ((pushAddr callState).toNat + 1) ∧
    callState.pc.toNat + 2 < 4096 ∧ callState.agenda = [] ∧ callState.phase = .running ∧ callState.fault = none ∧
    ∃ t, step callState = .next t ∧ fetch t = .ok 0x00EE := by
  refine ⟨by decide +kernel, ?_, by unfold Writable; decide, by unfold Writable; decide, by decide, rfl, rfl, rfl,
    ⟨_, rfl, by decide +kernel⟩⟩
  rintro ⟨depth, h, h'⟩
  cases h
  revert h'
  decide

theorem witness_sound_timer : (∃ t, step State.reset = .next t) ∧
    ∃ f, step (raise ⟨.invalidKey, 16⟩ none State.reset) = .fault f := ⟨⟨_, rfl⟩, ⟨_, rfl⟩⟩

theorem witness_instruction_writes : ∃ t, exec (.ldImm 3 9) State.reset = .next t ∧ t.getV 3 ≠ State.reset.getV 3 :=
  ⟨_, rfl, by decide⟩

theorem witness_only_cpu_and_load : (∃ t, runUnit .timer State.reset = .next t) ∧ AgentUnit.timer ≠ .cpu ∧
    ∀ bytes, AgentUnit.timer ≠ .host (.load bytes) := ⟨⟨_, rfl⟩, by decide, (fun _ h => by cases h)⟩

/-- The boundary values 15 and 16 of a key number. -/
theorem witness_keys : ((stateWith [(3, 15)] 0 []).getV 3).toNat = (15 : Fin 16).val ∧
    15 < ((stateWith [(3, 16)] 0 []).getV 3).toNat := by decide

/-- A push at the last two bytes, a full stack, a first byte and a second byte that cannot be written. -/
theorem witness_call :
    (¬StackFull { State.reset with SP := 0xFFC } ∧ Writable { State.reset with SP := 0xFFC } 0xFFE ∧
      Writable { State.reset with SP := 0xFFC } 0xFFF ∧ (pushAddr { State.reset with SP := 0xFFC }).toNat = 0xFFE) ∧
    StackFull { callState with SP := 0xFA2 } ∧
    ((pushAddr { State.reset with SP := 0 }).toNat = 2 ∧ ¬Writable State.reset 2) ∧
    ((pushAddr { State.reset with SP := 0xFFD }).toNat = 0xFFF ∧ Writable State.reset 0xFFF ∧ ¬Writable State.reset 0x1000) := by
  refine ⟨⟨?_, by unfold Writable; decide, by unfold Writable; decide, by decide⟩, ⟨1, rfl, by decide⟩,
    ⟨by decide, by unfold Writable; decide⟩, ⟨by decide, by unfold Writable; decide, by unfold Writable; decide⟩⟩
  rintro ⟨depth, h, -⟩
  cases h

/-- A return to 0xFFF, one whose target is 0x1000, an empty stack, SP = 0x1000 and SP = 0xFFF. -/
theorem witness_ret :
    (¬StackEmpty State.reset ∧ State.reset.SP.toNat + 1 < 4096) ∧
    ((stateWith [] 0 [(0xFA0, 0x0F), (0xFA1, 0xFD)]).read 0xFA0).toNat * 256 +
      ((stateWith [] 0 [(0xFA0, 0x0F), (0xFA1, 0xFD)]).read 0xFA1).toNat + 2 = 4095 ∧
    ((stateWith [] 0 [(0xFA0, 0x0F), (0xFA1, 0xFE)]).read 0xFA0).toNat * 256 +
      ((stateWith [] 0 [(0xFA0, 0x0F), (0xFA1, 0xFE)]).read 0xFA1).toNat + 2 = 4096 ∧
    StackEmpty callState ∧
    (¬StackEmpty { State.reset with SP := 0x1000 } ∧ 4096 ≤ ({ State.reset with SP := 0x1000 } : State).SP.toNat) ∧
    (¬StackEmpty { State.reset with SP := 0xFFF } ∧ ({ State.reset with SP := 0xFFF } : State).SP.toNat = 4095) := by
  refine ⟨⟨?_, by decide⟩, by decide, by decide, ⟨⟨1, rfl⟩, rfl⟩, ⟨?_, by decide⟩, ⟨?_, by decide⟩⟩ <;>
    (rintro ⟨⟨depth, h⟩, -⟩; cases h)

/-- A push and a return at the default width 16 and at 13, whose top is the last word of memory. -/
theorem witness_wraps :
    specConfig.addrRegWidth = 16 ∧
    (let s := { stateWith [] 0 [(0xFFC, 0x0F), (0xFFD, 0xFD)] with SP := 0xFFC, cfg := { specConfig with addrRegWidth := 13 } }
     ¬StackFull s ∧ ¬StackEmpty s ∧ (s.SP.toNat + 2) % 2 ^ s.cfg.addrRegWidth.val = 0xFFE ∧ Writable s 0xFFE ∧
     Writable s 0xFFF ∧ s.SP.toNat + 1 < 4096 ∧ (s.readWord s.SP.toNat).toNat + 2 = 4095) := by
  refine ⟨rfl, ?_, ?_, by decide, by unfold Writable; decide, by unfold Writable; decide, by decide, by decide⟩
  · rintro ⟨depth, h, -⟩; cases h
  · rintro ⟨⟨depth, h⟩, -⟩; cases h

/-- The targets 4095 and 4096. -/
theorem witness_indexed_jump : ((stateWith [(0, 0)] 0 []).getV 0).toNat + (0xFFF : BitVec 12).toNat = 4095 ∧
    ((stateWith [(0, 1)] 0 []).getV 0).toNat + (0xFFF : BitVec 12).toNat = 4096 := by decide

/-- Three bytes that end at 0xFFF, a third byte at 0x1000, a first byte in the glyph table. -/
theorem witness_digits_and_stores : Memory.wf specConfig.glyphTable State.reset.Mem = true ∧
    (∀ k, k < 3 → Writable (stateWith [] 0xFFD []) (indexAddr (stateWith [] 0xFFD []) k)) ∧
    ((∀ j, j < 2 → Writable (stateWith [] 0xFFE []) (indexAddr (stateWith [] 0xFFE []) j)) ∧
      ¬Writable (stateWith [] 0xFFE []) (indexAddr (stateWith [] 0xFFE []) 2)) ∧
    ¬Writable (stateWith [] 0x04E []) (indexAddr (stateWith [] 0x04E []) 0) ∧
    (∀ k, k ≤ (2 : Reg).val → Writable (stateWith [] 0xFFD []) (indexAddr (stateWith [] 0xFFD []) k)) := by
  unfold Writable
  decide

/-- Reads that end at 0xFFF, and a second read at 0x1000. -/
theorem witness_loads_and_draws :
    (∀ k, k ≤ (1 : Reg).val → Readable (indexAddr (stateWith [] 0xFFE []) k)) ∧
    Readable (indexAddr (stateWith [] 0xFFF []) 0) ∧ ¬Readable (indexAddr (stateWith [] 0xFFF []) 1) ∧
    (∀ row, row < (1 : Nibble).val → Readable (indexAddr (stateWith [] 0xFFF []) row)) ∧
    State.reset.cfg.drawOperandRead = .live ∧ (0 : Reg) ≠ VF ∧
    ({ specConfig with drawOperandRead := .latched } : Config).drawOperandRead = .latched := by
  unfold Readable
  decide

/-- A sprite that covers a set pixel, one that covers only clear pixels, and pixels it does not cover. -/
theorem witness_sprite_covers :
    SpriteCovers 0 1 1 ((stateWith [] 0x300 [(0x300, 0x80)]).setPixel 0 0 true) 0 0 ∧
    ¬SpriteCovers 0 1 1 (stateWith [] 0x300 [(0x300, 0x80)]) 1 0 ∧
    ((stateWith [] 0x300 [(0x300, 0x80)]).setPixel 0 0 true).pixel 0 0 = true := by
  refine ⟨⟨0, 0, by decide, by decide, by decide, by decide, by decide⟩, ?_, by decide⟩
  rintro ⟨row, col, hr, hc, hb, hx, -⟩
  interval_cases row
  interval_cases col <;> revert hb hx <;> decide

/-- The lowest and the highest key, and no key. -/
theorem witness_key_wait :
    (((State.reset.setKey 15 true).getKey 15 = true) ∧ ∀ j : Fin 16, j < 15 → (State.reset.setKey 15 true).getKey j = false) ∧
    (State.reset.setKey 0 true).getKey 0 = true ∧ ∀ k, State.reset.getKey k = false := by decide

/-- The keys 15 and 16, no fault and a fault, a running machine (also for a tick and for the hold). -/
theorem witness_press : 15 < 16 ∧ 16 ≤ 16 ∧ State.reset.phase = .running ∧ State.reset.fault = none ∧
    (raise ⟨.invalidKey, 16⟩ none State.reset).phase = .running ∧
    (raise ⟨.invalidKey, 16⟩ none State.reset).fault ≠ none := by decide

/-- The last turn of a draw of one row at (62, 31): column 7 falls on pixel (5, 31). -/
theorem witness_draw_turn :
    let s := stateWith [(0, 62), (1, 31)] 0xFFF [(0xFFF, 0x01)]
    7 < 8 * (1 : Nibble).val ∧ true = spriteBitAt s 7 ∧ (5 : Fin 64).val = (coordAt s 0 0 + 7 % 8) % 64 ∧
    (31 : Fin 32).val = (coordAt s 0 1 + 7 / 8) % 32 := by decide

theorem witness_scheduled_ticks :
    ({ State.reset with DT := 1, agenda := [.timer, .timer, .cpu] } : State).agenda = List.replicate 2 .timer ++ [.cpu] ∧
    State.reset.phase = .running ∧ State.reset.fault = none := by decide

/-- A self-jump with DT = 1 and the units timer, CPU, host in turn: the delay timer reaches 0 at the first unit. -/
def fairUnits (n : Nat) : AgentUnit := if n % 3 = 0 then .timer else if n % 3 = 1 then .cpu else .host .isHalted

/-- The states of that run. -/
def fairStates (n : Nat) : State := if n = 0 then { at200 0x1200 with DT := 1 } else at200 0x1200

theorem witness_fair_run : IsRun fairUnits fairStates ∧ WeaklyFair fairUnits fairStates ∧
    (∀ n, (fairStates n).phase = .running ∧ (fairStates n).fault = none) ∧
    (∀ n, (fairStates (n + 1)).DT.toNat ≤ (fairStates n).DT.toNat) := by
  have h0 : unitEnabled .timer { at200 0x1200 with DT := 1 } = true ∧
      runUnit .timer { at200 0x1200 with DT := 1 } = .next (at200 0x1200) := ⟨rfl, rfl⟩
  have h1 : ∀ u ∈ [AgentUnit.timer, .cpu, .host .isHalted],
      unitEnabled u (at200 0x1200) = true ∧ runUnit u (at200 0x1200) = .next (at200 0x1200) := by
    intro u hu
    simp only [List.mem_cons, List.not_mem_nil, or_false] at hu
    rcases hu with rfl | rfl | rfl <;> exact ⟨rfl, rfl⟩
  refine ⟨fun n => ?_, ?_, fun n => ?_, fun n => ?_⟩
  · rcases Nat.eq_zero_or_pos n with rfl | hn
    · exact h0
    · rw [fairStates, if_neg (by omega), fairStates, if_neg (by omega)]
      refine h1 _ ?_
      unfold fairUnits
      split
      · simp
      · split <;> simp
  · intro a _ start
    cases a with
    | timer => exact ⟨3 * start, by omega, by simp [fairUnits, AgentUnit.agent]⟩
    | cpu => exact ⟨3 * start + 1, by omega, by simp [fairUnits, AgentUnit.agent]⟩
    | host => exact ⟨3 * start + 2, by omega, by simp [fairUnits, AgentUnit.agent]⟩
  · unfold fairStates
    split <;> decide
  · unfold fairStates
    rw [if_neg (by omega)]
    split <;> decide

/-- The images of 3584 and 3585 bytes; the phases before a load and at the shutdown, with and without a fault. -/
theorem witness_load : (List.replicate 3584 (0 : Byte)).length ≤ 3584 ∧ 3584 < (List.replicate 3585 (0 : Byte)).length ∧
    State.reset.phase ≠ .ended ∧ (createdState specConfig).phase = .created ∧
    runUnit (.host .shutdown) State.reset = .next { State.reset with phase := .ended } ∧ 3585 < 2 ^ 32 ∧
    AgentUnit.timer ≠ .cpu ∧ State.reset.fault = none ∧ (raise ⟨.invalidKey, 16⟩ none State.reset).fault ≠ none :=
  ⟨List.length_replicate.le, List.length_replicate.symm ▸ (by decide : 3584 < 3585), by decide, rfl, rfl, by decide,
    by decide, rfl, by decide⟩

/-- The two ends of a run (R723). -/
theorem witness_end_of_run : atEndOfRun .selfJump (at200 0x1200) ∧ WaitsAtKeyWait (at200 0x1200) ∧
    (at200 0x1200).agenda = [] ∧ atEndOfRun .waiting { at200 0xF30A with halted := true } :=
  ⟨⟨rfl, rfl, 0x200, by decide +kernel, by decide⟩, (fun h => by cases h), rfl, ⟨rfl, rfl, rfl, by decide +kernel⟩⟩

end Sys2Proof.Tests
end

/-! SUPPORT. I, pc and SP: what an instruction can leave in them, and the width they fit in (R105, R120, R121;
log 20). -/

namespace Sys2Proof.Machine

/-! ### What an instruction leaves in I, pc and SP -/

/-- Everything an instruction can do to the address registers: pc stays, advances, skips or becomes an address; I stays,
becomes an address or wraps; SP stays or wraps (R106, R109, R204). -/
structure AddressUpdate (s t : State) : Prop where
  pc : t.pc = s.pc ∨ t.pc = s.pc + 2 ∨ t.pc = s.pc + 4 ∨ t.pc.toNat < 4096
  I  : t.I = s.I ∨ t.I.toNat < 4096 ∨ ∃ n, t.I = wrapAddr s.cfg n
  SP : t.SP = s.SP ∨ ∃ n, t.SP = wrapAddr s.cfg n

theorem AddressUpdate.of_advance {s t : State} (hpc : t.pc = s.pc + 2) (hI : t.I = s.I) (hSP : t.SP = s.SP) :
    AddressUpdate s t := ⟨.inr (.inl hpc), .inl hI, .inl hSP⟩

theorem AddressUpdate.of_skipIf (s : State) (c : Bool) : AddressUpdate s (s.skipIf c) := by
  refine ⟨?_, .inl rfl, .inl rfl⟩
  cases c with
  | false => exact .inr (.inl rfl)
  | true => exact .inr (.inr (.inl rfl))

theorem ofNat_lt_of_address {a : Nat} (h : a < 4096) : (BitVec.ofNat 16 a).toNat < 4096 := by
  rw [BitVec.toNat_ofNat]; omega

theorem AddressUpdate.of_jump (s : State) {a : Nat} (h : a < 4096) : AddressUpdate s (s.jump a) :=
  ⟨.inr (.inr (.inr (ofNat_lt_of_address h))), .inl rfl, .inl rfl⟩

/-- A jump after SP was moved and wrapped: a call's or a return's. -/
theorem AddressUpdate.of_stack_jump {s u : State} {n a : Nat} (hI : u.I = s.I) (hSP : u.SP = wrapAddr s.cfg n)
    (h : a < 4096) : AddressUpdate s (u.jump a) :=
  ⟨.inr (.inr (.inr (ofNat_lt_of_address h))), .inl hI, .inr ⟨n, hSP⟩⟩

/-- A glyph address is at most 5 * 255, with either mask (R494). -/
theorem glyphAddr_lt (mask : Bool) (d : Byte) : glyphAddr mask d < 4096 := by
  have := d.isLt
  have := (d &&& 0xF).isLt
  unfold glyphAddr; split <;> omega

theorem exec_addressUpdate {i : Instr} {s t : State} (h : exec i s = .next t) : AddressUpdate s t := by
  have gate : ∀ {check : Option Cause} {d : State}, guarded check (encode i) s d = .next t →
      (check = none → AddressUpdate s d) → AddressUpdate s t :=
    fun hg hd => guarded_elim hg (fun _ _ => ⟨.inl rfl, .inl rfl, .inl rfl⟩) hd
  cases i
  case jp nnn => cases h; exact .of_jump s nnn.isLt
  case jpV0 nnn => exact gate h fun hc => .of_jump s (resolve_eq_none_iff.mp hc)
  case call nnn => exact gate h fun _ => .of_stack_jump rfl rfl nnn.isLt
  case ret d =>
    exact gate h fun hc => .of_stack_jump rfl rfl (resolve_eq_none_iff.mp (Option.or_eq_none_iff.mp hc).2)
  case seImm | sneImm | seReg | sneReg => cases h; exact .of_skipIf ..
  case skp | sknp => exact gate h fun _ => .of_skipIf ..
  case ldI nnn => cases h; exact ⟨.inr (.inl rfl), .inr (.inl (ofNat_lt_of_address nnn.isLt)), .inl rfl⟩
  case addI x => cases h; exact ⟨.inr (.inl rfl), .inr (.inr ⟨_, rfl⟩), .inl rfl⟩
  case ldF x => cases h; exact ⟨.inr (.inl rfl), .inr (.inl (ofNat_lt_of_address (glyphAddr_lt ..))), .inl rfl⟩
  case drw x y n =>
    have hd := (drawSprite_onlyDrawn x y n.val s).1
    refine gate h fun _ => .of_advance ?_ ?_ ?_
    · rw [State.advance_pc, hd]
    · rw [State.advance_I, hd]
    · rw [State.advance_SP, hd]
  case ldVxKey x =>
    simp only [exec, execLdVxKey] at h
    split at h
    · cases h; exact .of_advance rfl rfl rfl
    · cases h; exact ⟨.inl rfl, .inl rfl, .inl rfl⟩
  case ldB | store | load => exact gate h fun _ => .of_advance rfl rfl rfl
  case addReg | subReg | shr | subnReg | shl => cases h; exact .of_advance (by simp) (by simp) (by simp)
  -- The other register, timer and display instructions only advance.
  all_goals (cases h; exact .of_advance rfl rfl rfl)

/-! ### The width -/

/-- A width R9 admits holds every address, and the pc of 0x1003 and below (R108; log 20). -/
theorem le_two_pow_addrRegWidth_of_wf {c : Config} (h : c.wf = true) : 8192 ≤ 2 ^ c.addrRegWidth.val := by
  simp only [Config.wf, Bool.and_eq_true, decide_eq_true_eq] at h
  obtain ⟨⟨hwidth, -⟩, -⟩ := h
  exact Nat.pow_le_pow_right (n := 2) (i := 13) (by decide) hwidth

theorem stackBase_lt_of_wf {c : Config} (h : c.wf = true) : c.stackBase.toNat < 2 ^ c.addrRegWidth.val := by
  simp only [Config.wf, Bool.and_eq_true, decide_eq_true_eq] at h
  obtain ⟨⟨-, hbase⟩, -⟩ := h
  exact hbase

/-- An instruction that was fetched, so from a pc below 0xFFF, leaves I, pc and SP within the width. -/
theorem AddressUpdate.keeps_fit {s t : State} (h : AddressUpdate s t) (hcfg : t.cfg = s.cfg)
    (hpc : s.pc.toNat + 1 < 4096) (hs : AddressRegistersFit s) : AddressRegistersFit t := by
  obtain ⟨hwf, hI, -, hSP⟩ := hs
  have hw := le_two_pow_addrRegWidth_of_wf hwf
  refine ⟨hcfg ▸ hwf, ?_, ?_, ?_⟩ <;> rw [hcfg]
  · rcases h.I with h | h | ⟨n, h⟩
    · rwa [h]
    · omega
    · exact h ▸ wrapAddr_lt s.cfg n
  · have : t.pc.toNat < 8192 := by
      rcases h.pc with h | h | h | h
      · rw [h]; omega
      · rw [h]; bv_omega
      · rw [h]; bv_omega
      · omega
    omega
  · rcases h.SP with h | ⟨n, h⟩
    · rwa [h]
    · exact h ▸ wrapAddr_lt s.cfg n

/-- A load leaves 0 in I, 0x200 in pc and STACK_BASE in SP (R702). -/
theorem loadImage_addressRegistersFit {s : State} {bytes : List Byte} (hwf : s.cfg.wf = true)
    (hl : bytes.length ≤ 3584) : AddressRegistersFit (loadImage bytes s) := by
  have hw := le_two_pow_addrRegWidth_of_wf hwf
  rw [loadImage_of_le hl]
  refine ⟨hwf, Nat.two_pow_pos _, ?_, stackBase_lt_of_wf hwf⟩
  exact Nat.lt_of_lt_of_le (by decide : 0x200 < 8192) hw

/-- Settles O58: only an executed instruction and a load move I, pc or SP. The instruction was fetched, so its pc was
below 0xFFF and the advance stays below 2^13; the other updates are addresses, STACK_BASE, or wrapped to the width. -/
theorem stepKeepsAddressRegistersInWidth : Obligations.StepKeepsAddressRegistersInWidth :=
  step_preserves
    (take := fun _ hs => hs)
    (fault := fun _ _ _ hs => hs)
    (instr := fun _ _ _ _ hs _ _ hw _ hx =>
      (exec_addressUpdate hx).keeps_fit (exec_memory hx).1 (fetch_eq_ok_iff.mp hw).1 hs)
    (timers := fun _ _ _ hs => hs)
    (key := fun _ _ _ hs _ _ => hs)
    (changed := fun _ _ hs => hs)
    (ended := fun _ hs => hs)
    (load := fun _ _ ⟨hwf, _⟩ hl => loadImage_addressRegistersFit hwf hl)

/-! ### A push and a pop whose checks pass -/

/-- The checks of a push: room on the stack, and two bytes at the new top that can be written (R422). -/
theorem pushCheck_none {s : State} (hfull : ¬StackFull s) (h0 : Writable s (pushAddr s).toNat)
    (h1 : Writable s ((pushAddr s).toNat + 1)) : pushCheck s = none := by
  refine Option.or_eq_none_iff.mpr ⟨overflowCheck_of_not_full hfull, firstFailing_checkWrite_none fun k hk => ?_⟩
  match k with
  | 0 => exact h0
  | 1 => exact h1

/-- The checks of a pop: a stack that is not empty, and two bytes at SP that can be read (R423). -/
theorem popCheck_none {s : State} (hempty : ¬StackEmpty s) (hSP : s.SP.toNat + 1 < 4096) : popCheck s = none :=
  Option.or_eq_none_iff.mpr
    ⟨underflowCheck_of_not_empty hempty, firstFailing_resolve_eq_none_iff.mpr (.inr (by omega))⟩

/-- 2nnn whose push passes its checks (R421). -/
theorem exec_call_of_pushCheck {s : State} (h : pushCheck s = none) (nnn : BitVec 12) :
    exec (.call nnn) s = .next ((push s.pc s).jump nnn.toNat) := by
  rw [exec, execCall, h, guarded_none]

/-- 00EE whose pop passes its checks and whose target is an address (R424, R428). -/
theorem exec_ret_of_popCheck {s : State} (h : popCheck s = none) (ht : returnTarget s < 4096) (d : Nibble) :
    exec (.ret d) s = .next ((pop s).jump (returnTarget s)) := by
  rw [exec, execRet, h, resolve_eq_none_iff.mpr ht, Option.none_or, guarded_none]

/-- Settles O59: each of the three writes its register through `wrapAddr`, whose value is the remainder mod 2^w. -/
theorem addressUpdatesWrapAtTheWidth : Obligations.AddressUpdatesWrapAtTheWidth := by
  rintro x nnn d s modulus top target rfl rfl rfl
  rw [← wrapAddr_toNat s.cfg (s.SP.toNat + 2)]
  refine ⟨⟨_, rfl, wrapAddr_toNat ..⟩, fun hfull h0 h1 => ?_, fun hempty hSP ht => ?_⟩
  · exact ⟨_, exec_call_of_pushCheck (pushCheck_none hfull h0 h1) nnn, rfl⟩
  · exact ⟨_, exec_ret_of_popCheck (popCheck_none hempty hSP) ht d, wrapAddr_toNat ..⟩

end Sys2Proof.Machine

/-! SUPPORT. Frames: what each operation of the state, and each instruction, leaves unchanged (10_state.md R102, R120
to R127). -/

namespace Sys2Proof.Machine

/-! ### The calculus of frames -/

theorem Part.same_refl (p : Part) (s : State) : p.same s s := by
  cases p <;> simp only [Part.same, implies_true]

theorem Part.same_trans {p : Part} {s t u : State} (h : p.same s t) (h' : p.same t u) : p.same s u := by
  cases p
  case Key | Mem => exact fun a => (h' a).trans (h a)
  case Pix => exact fun px py => (h' px py).trans (h px py)
  all_goals exact Eq.trans h' h

theorem SameBut.trans {rs rs' : List Reg} {ps ps' : List Part} {s t u : State} (h : SameBut rs ps s t)
    (h' : SameBut rs' ps' t u) : SameBut (rs ++ rs') (ps ++ ps') s u := by
  obtain ⟨hr, hp⟩ := h
  obtain ⟨hr', hp'⟩ := h'
  simp only [SameBut, List.mem_append, not_or]
  exact ⟨fun r hn => (hr' r hn.2).trans (hr r hn.1), fun p hn => Part.same_trans (hp p hn.1) (hp' p hn.2)⟩

theorem SameBut.mono {rs rs' : List Reg} {ps ps' : List Part} {s t : State} (h : SameBut rs ps s t)
    (hrs : rs ⊆ rs') (hps : ps ⊆ ps') : SameBut rs' ps' s t := by
  obtain ⟨hr, hp⟩ := h
  exact ⟨fun r hn => hr r fun hm => hn (hrs hm), fun p hn => hp p fun hm => hn (hps hm)⟩

/-- A register that changed is one the frame lists. -/
theorem SameBut.mem_of_getV_ne {rs : List Reg} {ps : List Part} {s t : State} {r : Reg} (h : SameBut rs ps s t)
    (hr : t.getV r ≠ s.getV r) : r ∈ rs :=
  Decidable.byContradiction fun hn => hr (h.1 r hn)

/-- A part that changed is one the frame lists. -/
theorem SameBut.mem_of_not_same {rs : List Reg} {ps : List Part} {s t : State} {p : Part} (h : SameBut rs ps s t)
    (hp : ¬p.same s t) : p ∈ ps :=
  Decidable.byContradiction fun hn => hp (h.2 p hn)

/-- An update of one part. For a record update every other part reads the same by computation. -/
theorem SameBut.of_part {p : Part} {s t : State} (hV : t.V = s.V)
    (h : ∀ q, q.same s s → q ≠ p → q.same s t := by intro q _ _; cases q <;> trivial) : SameBut [] [p] s t :=
  ⟨fun r _ => State.getV_congr hV r, fun q hq => h q (q.same_refl s) fun e => hq (e ▸ List.mem_singleton_self p)⟩

/-- An update of some registers. -/
theorem SameBut.of_registers {rs : List Reg} {s : State} {V : Vector Byte 16}
    (h : ∀ r, r ∉ rs → ({ s with V := V } : State).getV r = s.getV r) : SameBut rs [] s { s with V := V } :=
  ⟨h, fun q _ => by
    have same := q.same_refl s
    cases q <;> exact same⟩

/-! ### The operations of the state -/

section
variable (s : State)

theorem sameBut_pc (w : Word) : SameBut [] [.pc] s { s with pc := w } := .of_part rfl

theorem sameBut_I (w : Word) : SameBut [] [.I] s { s with I := w } := .of_part rfl

theorem sameBut_SP (w : Word) : SameBut [] [.SP] s { s with SP := w } := .of_part rfl

theorem sameBut_DT (b : Byte) : SameBut [] [.DT] s { s with DT := b } := .of_part rfl

theorem sameBut_ST (b : Byte) : SameBut [] [.ST] s { s with ST := b } := .of_part rfl

theorem sameBut_Pix (d : Vector (Vector Bool 32) 64) : SameBut [] [.Pix] s { s with Pix := d } := .of_part rfl

theorem sameBut_changed (b : Bool) : SameBut [] [.changed] s { s with changed := b } := .of_part rfl

theorem sameBut_halted (b : Bool) : SameBut [] [.halted] s { s with halted := b } := .of_part rfl

theorem sameBut_draws (n : Nat) : SameBut [] [.draws] s { s with draws := n } := .of_part rfl

theorem sameBut_writeBytes (a : Nat) (bs : List Byte) : SameBut [] [.Mem] s (s.writeBytes a bs) := .of_part rfl

theorem sameBut_raise (c : Cause) (w : Option Word) : SameBut [] [.fault] s (raise c w s) := .of_part rfl

theorem sameBut_setV (x : Reg) (b : Byte) : SameBut [x] [] s (s.setV x b) :=
  .of_registers fun _ hr => State.getV_setV_ne s b fun e => hr (e ▸ List.mem_singleton_self _)

theorem sameBut_writeWithFlag (x : Reg) (r g : Byte) : SameBut [x, VF] [] s (writeWithFlag x r g s) := by
  unfold writeWithFlag
  split
  · exact (sameBut_setV s x r).trans (sameBut_setV _ VF g)
  · exact ((sameBut_setV s VF g).trans (sameBut_setV _ x r)).mono (List.Perm.swap ..).subset (List.Subset.refl _)

theorem sameBut_loadRegisters (x : Reg) :
    SameBut ((List.finRange 16).filter (·.val ≤ x.val)) [] s (loadRegisters x s) :=
  .of_registers fun r hr => by
    have hx : ¬r.val ≤ x.val := by simpa using hr
    exact (getV_loadRegisters s x r).trans (if_neg hx)

end

/-- A draw changes VF and the pixels alone (R404). -/
theorem OnlyDrawn.sameBut {s t : State} (h : OnlyDrawn s t) : SameBut [VF] [.Pix] s t := by
  obtain ⟨ht, hV⟩ := h
  have registers : SameBut [VF] [] s { s with V := t.V } := .of_registers fun r hr => hV r fun e => hr (by simp [e])
  rw [ht]
  exact registers.trans (sameBut_Pix _ t.Pix)

/-! ### The instructions -/

/-- The registers an instruction writes, as a list. -/
def writtenRegisters (i : Instr) : List Reg := (List.finRange 16).filter (writesRegister i)

theorem mem_writtenRegisters {i : Instr} {r : Reg} : r ∈ writtenRegisters i ↔ writesRegister i r = true := by
  simp [writtenRegisters]

/-- The parts of the state that an instruction writes when it completes. -/
def writtenParts : Instr → List Part
  | .cls _ | .drw _ _ _ => [.Pix, .changed, .pc]
  | .call _ => [.SP, .Mem, .pc]
  | .ret _ => [.SP, .pc]
  | .ldI _ | .addI _ | .ldF _ => [.I, .pc]
  | .ldB _ | .store _ => [.Mem, .pc]
  | .rnd _ _ => [.pc, .draws]
  | .ldVxKey _ => [.halted, .pc]
  | .ldDtVx _ => [.DT, .pc]
  | .ldStVx _ => [.ST, .pc]
  | .jp _ | .jpV0 _ => [.pc]
  | .seImm _ _ | .sneImm _ _ | .seReg _ _ _ | .sneReg _ _ _ | .skp _ | .sknp _ => [.pc]
  | .ldImm _ _ | .addImm _ _ | .ldReg _ _ | .orReg _ _ | .andReg _ _ | .xorReg _ _ => [.pc]
  | .addReg _ _ | .subReg _ _ | .shr _ _ | .subnReg _ _ | .shl _ _ => [.pc]
  | .ldVxDt _ | .load _ => [.pc]

/-- A guarded instruction raises a fault of its own word, or its check passes and it completes. -/
theorem guarded_inversion {i : Instr} {check : Option Cause} {s d t : State}
    (h : guarded check (encode i) s d = .next t) : Raised i s t ∨ check = none ∧ t = d := by
  rcases guarded_cases check (encode i) s d with ⟨hc, hg⟩ | ⟨c, -, hg⟩ <;> (rw [hg] at h; cases h)
  · exact .inr ⟨hc, rfl⟩
  · exact .inl ⟨c, rfl⟩

/-- `t` differs from `s` at most in what the instruction `i` writes when it completes. -/
abbrev WritesOnly (i : Instr) (s t : State) : Prop := SameBut (writtenRegisters i) (writtenParts i) s t

/-- A frame within an instruction's two tables is that instruction's. -/
theorem SameBut.writesOnly {rs : List Reg} {ps : List Part} {i : Instr} {s t : State} (h : SameBut rs ps s t)
    (hrs : ∀ r ∈ rs, writesRegister i r = true := by simp [writesRegister])
    (hps : ps ⊆ writtenParts i := by simp [writtenParts]) : WritesOnly i s t :=
  h.mono (fun r hr => mem_writtenRegisters.mpr (hrs r hr)) hps

/-- Each instruction, as the operations it is made of. -/
theorem exec_writesOnly {i : Instr} {s t : State} (h : exec i s = .next t) : Raised i s t ∨ WritesOnly i s t := by
  have gate : ∀ {check : Option Cause} {d : State}, guarded check (encode i) s d = .next t →
      WritesOnly i s d → Raised i s t ∨ WritesOnly i s t :=
    fun hg hd => (guarded_inversion hg).imp_right fun ⟨_, ht⟩ => ht ▸ hd
  cases i
  case cls =>
    cases h
    have cleared := (sameBut_Pix s (Vector.replicate 64 (Vector.replicate 32 false))).trans (sameBut_changed _ true)
    exact .inr (cleared.trans (sameBut_pc _ _)).writesOnly
  case drw x y n =>
    exact gate h
      ((drawSprite_onlyDrawn x y n.val s).sameBut.trans (sameBut_changed _ _) |>.trans (sameBut_pc _ _) |>.writesOnly)
  case call =>
    exact gate h ((sameBut_writeBytes s _ _).trans (sameBut_SP _ _) |>.trans (sameBut_pc _ _) |>.writesOnly)
  case ret => exact gate h ((sameBut_SP s _).trans (sameBut_pc _ _)).writesOnly
  case jpV0 | skp | sknp => exact gate h (sameBut_pc s _).writesOnly
  case jp | seImm | sneImm | seReg | sneReg => cases h; exact .inr (sameBut_pc s _).writesOnly
  case ldImm | addImm | ldReg | orReg | andReg | xorReg | ldVxDt =>
    cases h; exact .inr ((sameBut_setV s _ _).trans (sameBut_pc _ _)).writesOnly
  case rnd =>
    cases h; exact .inr ((sameBut_setV s _ _).trans (sameBut_pc _ _) |>.trans (sameBut_draws _ _) |>.writesOnly)
  case addReg | subReg | shr | subnReg | shl =>
    cases h; exact .inr ((sameBut_writeWithFlag s _ _ _).trans (sameBut_pc _ _)).writesOnly
  case ldI | addI | ldF => cases h; exact .inr ((sameBut_I s _).trans (sameBut_pc _ _)).writesOnly
  case ldB | store => exact gate h ((sameBut_writeBytes s _ _).trans (sameBut_pc _ _)).writesOnly
  case load => exact gate h ((sameBut_loadRegisters s _).trans (sameBut_pc _ _)).writesOnly
  case ldVxKey x =>
    simp only [exec, execLdVxKey] at h
    split at h <;> cases h
    · exact .inr ((sameBut_halted s _).trans (sameBut_setV _ _ _) |>.trans (sameBut_pc _ _) |>.writesOnly)
    · exact .inr (sameBut_halted s _).writesOnly
  case ldDtVx => cases h; exact .inr ((sameBut_DT s _).trans (sameBut_pc _ _)).writesOnly
  case ldStVx => cases h; exact .inr ((sameBut_ST s _).trans (sameBut_pc _ _)).writesOnly

/-- A register that an instruction changed is one it writes. -/
theorem writesRegister_of_exec {i : Instr} {s t : State} {r : Reg} (h : exec i s = .next t)
    (hr : t.getV r ≠ s.getV r) : writesRegister i r = true := by
  rcases exec_writesOnly h with ⟨c, rfl⟩ | hw
  · exact absurd rfl hr
  · exact mem_writtenRegisters.mp (hw.mem_of_getV_ne hr)

/-- A part that an instruction changed is one it writes, or the fault status. -/
theorem mem_writtenParts_of_exec {i : Instr} {s t : State} {p : Part} (h : exec i s = .next t)
    (hp : ¬p.same s t) (hf : p ≠ .fault := by decide) : p ∈ writtenParts i := by
  rcases exec_writesOnly h with ⟨c, rfl⟩ | hw
  · exact absurd ((sameBut_raise s c _).2 p (by simp [hf])) hp
  · exact hw.mem_of_not_same hp

/-- Which instructions write which part, read off the table. -/
theorem writtenParts_only (i : Instr) :
    (.I ∈ writtenParts i → (∃ nnn, i = .ldI nnn) ∨ (∃ x, i = .addI x) ∨ ∃ x, i = .ldF x) ∧
    (.SP ∈ writtenParts i → (∃ nnn, i = .call nnn) ∨ ∃ d, i = .ret d) ∧
    (.DT ∈ writtenParts i → ∃ x, i = .ldDtVx x) ∧
    (.ST ∈ writtenParts i → ∃ x, i = .ldStVx x) ∧
    (.halted ∈ writtenParts i → ∃ x, i = .ldVxKey x) ∧
    (.changed ∈ writtenParts i → (∃ d, i = .cls d) ∨ ∃ x y n, i = .drw x y n) ∧
    (.Pix ∈ writtenParts i → (∃ d, i = .cls d) ∨ ∃ x y n, i = .drw x y n) ∧
    (.Mem ∈ writtenParts i → (∃ nnn, i = .call nnn) ∨ (∃ x, i = .ldB x) ∨ ∃ x, i = .store x) := by
  cases i <;> simp [writtenParts]

/-- Settles O17: what changed is in the instruction's frame, whose table says which instructions have it; the parts no
instruction writes are those that a fault and a completion both keep. -/
theorem instructionsWriteOnlyTheirState : Obligations.InstructionsWriteOnlyTheirState := by
  intro i s t h
  obtain ⟨hI, hSP, hDT, hST, hhalted, hchanged, hPix, hMem⟩ := writtenParts_only i
  have untouched : t.Key = s.Key ∧ t.cfg = s.cfg ∧ t.phase = s.phase ∧ t.agenda = s.agenda := by
    rcases exec_inversion h with ⟨c, rfl⟩ | ⟨-, hphase, hcfg, hagenda, hKey⟩
    · exact ⟨rfl, rfl, rfl, rfl⟩
    · exact ⟨hKey, hcfg, hphase, hagenda⟩
  obtain ⟨hKey, unwritten⟩ := untouched
  exact ⟨fun _ => writesRegister_of_exec h,
    fun hne => hI (mem_writtenParts_of_exec h hne),
    fun hne => hSP (mem_writtenParts_of_exec h hne),
    fun hne => hDT (mem_writtenParts_of_exec h hne),
    fun hne => hST (mem_writtenParts_of_exec h hne),
    fun hne => hhalted (mem_writtenParts_of_exec h hne),
    fun hne => hchanged (mem_writtenParts_of_exec h hne),
    fun px py hne => hPix (mem_writtenParts_of_exec h fun same => hne (same px py)),
    fun a hne => hMem (mem_writtenParts_of_exec h fun same => hne (same a)),
    State.getKey_congr hKey, unwritten⟩

end Sys2Proof.Machine

/-! SUPPORT. What every step keeps of pc and of the stack (10_state.md R105, R108, R121), and the state after reset
(R140). -/

namespace Sys2Proof.Machine

/-! ### The range of pc -/

/-- An instruction that was fetched, so from a pc of at most 0xFFE, leaves pc at or below 0x1002 (R106, R108). -/
theorem AddressUpdate.keeps_pcInRange {s t : State} (h : AddressUpdate s t) (hpc : s.pc.toNat + 1 < 4096) :
    PcInRange t := by
  unfold PcInRange
  rcases h.pc with h | h | h | h
  · rw [h]; omega
  · rw [h]; bv_omega
  · rw [h]; bv_omega
  · omega

/-- A load leaves pc at 0x200 (R702). -/
theorem loadImage_pcInRange {s : State} {bytes : List Byte} (hl : bytes.length ≤ 3584) :
    PcInRange (loadImage bytes s) := by
  rw [loadImage_of_le hl]
  exact (by decide : 0x200 ≤ 0x1003)

/-- Settles O12: only an executed instruction and a load move pc, and the fetch bounds the pc an instruction starts
from. -/
theorem stepKeepsPcInRange : Obligations.StepKeepsPcInRange :=
  step_preserves
    (take := fun _ hs => hs)
    (fault := fun _ _ _ hs => hs)
    (instr := fun _ _ _ _ _ _ _ hw _ hx => (exec_addressUpdate hx).keeps_pcInRange (fetch_eq_ok_iff.mp hw).1)
    (timers := fun _ _ _ hs => hs)
    (key := fun _ _ _ hs _ _ => hs)
    (changed := fun _ _ hs => hs)
    (ended := fun _ hs => hs)
    (load := fun _ _ _ hl => loadImage_pcInRange hl)

/-! ### The stack (R422, R423) -/

/-- What an instruction can do to SP: nothing, a push that is not on a full stack, or a pop that is not from an empty
one. -/
theorem exec_SP {i : Instr} {s t : State} (h : exec i s = .next t) :
    t.SP = s.SP ∨ overflowCheck s = none ∧ t.SP = pushAddr s ∨ underflowCheck s = none ∧ t.SP = (pop s).SP := by
  by_cases hSP : t.SP = s.SP
  · exact .inl hSP
  obtain ⟨-, -, stackOnly, -⟩ := instructionsWriteOnlyTheirState i s t h
  rcases stackOnly hSP with ⟨nnn, rfl⟩ | ⟨d, rfl⟩
  · rcases guarded_inversion h with ⟨c, rfl⟩ | ⟨hc, rfl⟩
    · exact .inl rfl
    · obtain ⟨hover, -⟩ := Option.or_eq_none_iff.mp hc
      exact .inr (.inl ⟨hover, rfl⟩)
  · rcases guarded_inversion h with ⟨c, rfl⟩ | ⟨hc, rfl⟩
    · exact .inl rfl
    · obtain ⟨hpop, -⟩ := Option.or_eq_none_iff.mp hc
      obtain ⟨hunder, -⟩ := Option.or_eq_none_iff.mp hpop
      exact .inr (.inr ⟨hunder, rfl⟩)

/-- SP is that of a stack of `entries` entries, on a base whose stack of `depth` entries fits in the width. -/
structure HoldsEntries (s : State) (depth entries : Nat) : Prop where
  checked : s.cfg.stackCheck = .checked depth
  fits : s.cfg.stackBase.toNat + 2 * depth < 2 ^ s.cfg.addrRegWidth.val
  le : entries ≤ depth
  SP : s.SP.toNat = s.cfg.stackBase.toNat + 2 * entries

/-- The depth test lets a push through only below the depth (R422). -/
theorem HoldsEntries.lt_depth {s : State} {depth entries : Nat} (h : HoldsEntries s depth entries)
    (hc : overflowCheck s = none) : entries < depth := by
  have hSP := h.SP
  simp only [overflowCheck, h.checked, ite_eq_right_iff, reduceCtorEq, imp_false] at hc
  omega

/-- The empty-stack test lets a pop through only where there is an entry (R423). -/
theorem HoldsEntries.pos {s : State} {depth entries : Nat} (h : HoldsEntries s depth entries)
    (hc : underflowCheck s = none) : 0 < entries := by
  have hSP := h.SP
  simp only [underflowCheck, h.checked, ite_eq_right_iff, reduceCtorEq, imp_false] at hc
  have : s.SP.toNat ≠ s.cfg.stackBase.toNat := fun e => hc (BitVec.eq_of_toNat_eq e)
  omega

/-- A push on a stack below its depth moves SP up by one entry, without a wrap (R422). -/
theorem HoldsEntries.pushAddr_toNat {s : State} {depth entries : Nat} (h : HoldsEntries s depth entries)
    (hlt : entries < depth) : (pushAddr s).toNat = s.cfg.stackBase.toNat + 2 * (entries + 1) := by
  obtain ⟨-, hfits, -, hSP⟩ := h
  rw [pushAddr, wrapAddr_toNat, Nat.mod_eq_of_lt (by omega)]
  omega

/-- A pop from a stack that is not empty moves SP down by one entry, without a wrap (R423). -/
theorem HoldsEntries.pop_SP_toNat {s : State} {depth entries : Nat} (h : HoldsEntries s depth entries)
    (hpos : 0 < entries) : (pop s).SP.toNat = s.cfg.stackBase.toNat + 2 * (entries - 1) := by
  obtain ⟨-, hfits, hle, hSP⟩ := h
  have back : s.SP.toNat + 2 ^ s.cfg.addrRegWidth.val - 2 = s.SP.toNat - 2 + 2 ^ s.cfg.addrRegWidth.val := by omega
  rw [pop_SP, wrapAddr_toNat, back, Nat.add_mod_right, Nat.mod_eq_of_lt (by omega)]
  omega

/-- An instruction run on a stack within its depth leaves one within its depth. -/
theorem exec_keeps_stackInBounds {i : Instr} {s t : State} (hs : StackInBounds s) (hp : s.phase = .running)
    (h : exec i s = .next t) : StackInBounds t := by
  have hcfg : t.cfg = s.cfg := (exec_memory h).1
  unfold StackInBounds
  rw [hcfg]
  intro _ hfits depth hdepth
  obtain ⟨entries, hle, hSP⟩ := hs hp hfits depth hdepth
  have holds : HoldsEntries s depth entries := ⟨hdepth, hfits depth hdepth, hle, hSP⟩
  rcases exec_SP h with h | ⟨hc, h⟩ | ⟨hc, h⟩ <;> rw [h]
  · exact ⟨entries, hle, hSP⟩
  · have hlt := holds.lt_depth hc
    exact ⟨entries + 1, hlt, holds.pushAddr_toNat hlt⟩
  · have hpos := holds.pos hc
    exact ⟨entries - 1, by omega, holds.pop_SP_toNat hpos⟩

/-- A load empties the stack (R702). -/
theorem loadImage_stackInBounds {s : State} {bytes : List Byte} (hl : bytes.length ≤ 3584) :
    StackInBounds (loadImage bytes s) := by
  rw [loadImage_of_le hl]
  exact fun _ _ depth _ => ⟨0, Nat.zero_le depth, rfl⟩

/-- Settles O15: only a call, a return and a load move SP. The tests of R422 and R423 keep the number of entries between
0 and the depth, and a base and depth that fit in the width keep SP from wrapping. -/
theorem stepKeepsStackInBounds : Obligations.StepKeepsStackInBounds :=
  step_preserves
    (take := fun _ hs => hs)
    (fault := fun _ _ _ hs => hs)
    (instr := fun _ _ _ _ hs hp _ _ _ hx => exec_keeps_stackInBounds hs hp hx)
    (timers := fun _ _ _ hs => hs)
    (key := fun _ _ _ hs _ _ => hs)
    (changed := fun _ _ hs => hs)
    (ended := fun _ _ hp => by cases hp)
    (load := fun _ _ _ hl => loadImage_stackInBounds hl)

/-! ### Reset -/

/-- Settles O54: the empty image is short enough for a load, which leaves `State.reset` field by field. -/
theorem resetIsLoadOfEmptyImage : Obligations.ResetIsLoadOfEmptyImage := by
  show loadImage [] (createdState specConfig) = State.reset
  rw [loadImage_of_le (by decide)]
  rfl

end Sys2Proof.Machine

/-! SUPPORT. ST and the changed flag are read into no other state (10_state.md R122, R124). -/

namespace Sys2Proof.Machine

/-- `s` with other values in ST and the changed flag. -/
def State.withUnread (s : State) (v : Byte) (b : Bool) : State := { s with ST := v, changed := b }

/-- Two outcomes that differ at most in ST and the changed flag of their next states. -/
inductive AlikeButUnread : Result → Result → Prop
  | next (t : State) (v : Byte) (b : Bool) : AlikeButUnread (.next t) (.next (t.withUnread v b))
  | fault (f : Fault) : AlikeButUnread (.fault f) (.fault f)

section
variable (s : State) (v : Byte) (b : Bool)

/-! ### What the units read -/

theorem State.withUnread_cfg : (s.withUnread v b).cfg = s.cfg := rfl
theorem State.withUnread_phase : (s.withUnread v b).phase = s.phase := rfl
theorem State.withUnread_fault : (s.withUnread v b).fault = s.fault := rfl
theorem agentsMove_withUnread : agentsMove (s.withUnread v b) = agentsMove s := rfl
theorem fetch_withUnread : fetch (s.withUnread v b) = fetch s := rfl
theorem lowestKey_withUnread : lowestKey (s.withUnread v b) = lowestKey s := rfl

/-! ### The operations that branch -/

theorem writeWithFlag_withUnread (x : Reg) (r g : Byte) :
    writeWithFlag x r g (s.withUnread v b) = (writeWithFlag x r g s).withUnread v b := by
  unfold writeWithFlag
  rw [State.withUnread_cfg]
  cases s.cfg.vfOrder <;> rfl

/-- Both branch on the same sprite bit and the same pixel, and each branch writes the same. -/
theorem drawPixel_withUnread (x y : Reg) (before : State) (row col : Nat) :
    drawPixel x y (before.withUnread v b) row col (s.withUnread v b) =
      (drawPixel x y before row col s).withUnread v b := by
  unfold drawPixel
  simp only [apply_ite (State.withUnread · v b)]
  rfl

theorem drawTurns_withUnread (x y : Reg) (k : Nat) :
    drawTurns x y (s.withUnread v b) k = (drawTurns x y s k).withUnread v b := by
  induction k with
  | zero => rfl
  | succ k ih => rw [drawTurns, drawTurns, ih, drawPixel_withUnread]

theorem guarded_alike (check : Option Cause) (w : Word) (d : State) (v' : Byte) (b' : Bool) :
    AlikeButUnread (guarded check w s d) (guarded check w (s.withUnread v b) (d.withUnread v' b')) := by
  cases check with
  | none => exact .next d v' b'
  | some c => exact .next (raise c (some w) s) v b

/-! ### The CPU agent -/

/-- Only 00E0 and Dxyn write the changed flag and only Fx18 writes ST; the others leave `v` and `b` in place. -/
theorem exec_alike (i : Instr) : AlikeButUnread (exec i s) (exec i (s.withUnread v b)) := by
  cases i
  case cls => exact .next _ v true
  case ldStVx x => exact .next _ (s.getV x) b
  case drw x y n =>
    simp only [exec, execDrw, drawSprite_eq_drawTurns, drawTurns_withUnread]
    exact guarded_alike s v b _ _ _ v true
  case addReg | subReg | shr | subnReg | shl =>
    simp only [exec, execAddReg, execSubReg, execShr, execSubnReg, execShl, writeWithFlag_withUnread]
    exact .next _ v b
  case ldVxKey x =>
    simp only [exec, execLdVxKey, lowestKey_withUnread]
    cases lowestKey s with
    | none => exact .next _ v b
    | some k => exact .next _ v b
  case ret | jpV0 | call | skp | sknp | ldB | store | load => exact guarded_alike s v b _ _ _ v b
  all_goals exact .next _ v b

theorem runWord_alike (w : Word) : AlikeButUnread (runWord w s) (runWord w (s.withUnread v b)) := by
  unfold runWord
  rw [State.withUnread_cfg]
  cases decode s.cfg.decodeStrict w with
  | error e => exact .next _ v b
  | ok i => exact exec_alike s v b i

theorem cpuStep_alike : AlikeButUnread (cpuStep s) (cpuStep (s.withUnread v b)) := by
  simp only [cpuStep, State.withUnread_fault, State.withUnread_phase, fetch_withUnread]
  cases s.fault with
  | some r => exact .fault (.recorded r)
  | none =>
    cases s.phase with
    | created => exact .fault .notLoaded
    | ended => exact .fault .shutDown
    | running =>
      cases fetch s with
      | error c => exact .next _ v b
      | ok w => exact runWord_alike s v b w

/-! ### The other agents -/

theorem tick_withUnread : ∃ v', tick (s.withUnread v b) = (tick s).withUnread v' b := by
  unfold tick
  rw [agentsMove_withUnread]
  split
  · exact ⟨countDown v, rfl⟩
  · exact ⟨v, rfl⟩

theorem setKeyOp_withUnread (k : Nat) (p : Bool) :
    (setKeyOp k p (s.withUnread v b)).1 = (setKeyOp k p s).1.withUnread v b := by
  unfold setKeyOp
  rw [agentsMove_withUnread]
  split
  · split <;> rfl
  · rfl

/-- A load sets both to their values after a load; a refused one leaves them. -/
theorem loadImage_withUnread (bytes : List Byte) :
    ∃ v' b', loadImage bytes (s.withUnread v b) = (loadImage bytes s).withUnread v' b' := by
  by_cases hl : bytes.length ≤ 3584
  · rw [loadImage_of_le hl, loadImage_of_le hl]
    exact ⟨0, false, rfl⟩
  · rw [loadImage_of_lt (by omega), loadImage_of_lt (by omega)]
    exact ⟨v, b, rfl⟩

theorem hostCall_withUnread (op : HostOp) :
    ∃ v' b', (hostCall op (s.withUnread v b)).1 = (hostCall op s).1.withUnread v' b' := by
  unfold hostCall
  rw [State.withUnread_phase]
  split
  · exact ⟨v, b, rfl⟩
  · cases op with
    | press k => exact ⟨v, b, setKeyOp_withUnread s v b k true⟩
    | release k => exact ⟨v, b, setKeyOp_withUnread s v b k false⟩
    | displayChanged => exact ⟨v, false, rfl⟩
    | tickTimers =>
      rw [agentsMove_withUnread]
      dsimp only
      split
      · exact (tick_withUnread s v b).imp fun _ ht => ⟨b, ht⟩
      · exact ⟨v, b, rfl⟩
    | load bytes => exact loadImage_withUnread s v b bytes
    | isHalted | framebuffer | readFault | shutdown => exact ⟨v, b, rfl⟩

theorem runUnit_alike (u : AgentUnit) : AlikeButUnread (runUnit u s) (runUnit u (s.withUnread v b)) := by
  cases u with
  | cpu => exact cpuStep_alike s v b
  | timer =>
    obtain ⟨v', ht⟩ := tick_withUnread s v b
    simp only [runUnit, State.withUnread_phase, ht]
    split
    · exact .fault _
    · exact .next _ v' b
  | host op =>
    obtain ⟨v', b', ht⟩ := hostCall_withUnread s v b op
    simp only [runUnit, State.withUnread_phase, ht]
    split
    · exact .fault _
    · exact .next _ v' b'

theorem step_alike : AlikeButUnread (step s) (step (s.withUnread v b)) :=
  runUnit_alike s.takeUnit v b (nextUnit s)

end

theorem AlikeButUnread.of_next {t : State} {r : Result} (h : AlikeButUnread (.next t) r) :
    ∃ v b, r = .next (t.withUnread v b) := by
  cases h with
  | next _ v b => exact ⟨v, b, rfl⟩

theorem AlikeButUnread.of_fault {f : Fault} {r : Result} (h : AlikeButUnread (.fault f) r) : r = .fault f := by
  cases h with
  | fault => rfl

/-- Settles O18: every unit's work commutes with the change of ST and the changed flag, up to the values it leaves
in them. -/
theorem soundTimerAndChangedFlagAreUnread : Obligations.SoundTimerAndChangedFlagAreUnread := by
  intro s v b
  have alike : AlikeButUnread (step s) (step (s.withUnread v b)) := step_alike s v b
  exact ⟨fun t h => AlikeButUnread.of_next (h ▸ alike), fun f h => AlikeButUnread.of_fault (h ▸ alike)⟩

end Sys2Proof.Machine

/-! SUPPORT. What every step keeps of memory: its form (20_memory.md R200; log 9) and the glyph table (10_state.md R131,
20_memory.md R206). -/

namespace Sys2Proof.Machine

/-! ### The canonical form and the address space -/

/-- A write to addresses that can all be written keeps the form of memory. -/
theorem MemoryForm.writeBytes {s : State} {a : Nat} {bs : List Byte} (hs : MemoryForm s)
    (hw : ∀ k, k < bs.length → Writable s (a + k)) : MemoryForm (s.writeBytes a bs) := by
  obtain ⟨hwf, hspace⟩ := hs
  refine ⟨Memory.wf_writeBytes hwf, ?_⟩
  cases bs with
  | nil => exact hspace
  | cons b bs =>
    obtain ⟨hlast, -⟩ := hw bs.length (Nat.lt_succ_self _)
    exact Memory.inSpace_writeBytes hspace hlast

/-- What an instruction does to memory keeps its form. -/
theorem MemoryWritten.keeps_memoryForm {s t : State} (h : MemoryWritten s t) (hcfg : t.cfg = s.cfg)
    (hs : MemoryForm s) : MemoryForm t := by
  unfold MemoryForm
  rw [hcfg]
  rcases h with h | ⟨a, bs, hw, h⟩ <;> rw [h]
  · exact hs
  · exact hs.writeBytes hw

/-- An image that fits, from 0x200 on, lies within the 4096 bytes (R702). -/
theorem loadImage_memoryForm {s : State} {bytes : List Byte} (hl : bytes.length ≤ 3584) :
    MemoryForm (loadImage bytes s) := by
  rw [loadImage_of_le hl]
  exact ⟨Memory.wf_image, Memory.inSpace_image (Nat.add_le_add_left hl 0x200)⟩

/-- Settles O11: only an executed instruction and a load change memory. An instruction's run of bytes was checked
address by address, and a load installs a canonical image that ends at 0xFFF at the latest. -/
theorem stepKeepsMemoryForm : Obligations.StepKeepsMemoryForm :=
  step_preserves
    (take := fun _ hs => hs)
    (fault := fun _ _ _ hs => hs)
    (instr := fun _ _ _ _ hs _ _ _ _ hx =>
      have ⟨hcfg, hmem⟩ := exec_memory hx
      hmem.keeps_memoryForm hcfg hs)
    (timers := fun _ _ _ hs => hs)
    (key := fun _ _ _ hs _ _ => hs)
    (changed := fun _ _ hs => hs)
    (ended := fun _ hs => hs)
    (load := fun _ _ _ hl => loadImage_memoryForm hl)

/-! ### The glyph table -/

/-- An address that cannot be written reads after an instruction as before it (R203, R206). -/
theorem MemoryWritten.read_of_not_writable {s t : State} (h : MemoryWritten s t) (hcfg : t.cfg = s.cfg) {c : Nat}
    (hc : ¬Writable s c) : t.read c = s.read c := by
  rcases h with h | ⟨a, bs, hw, h⟩
  · exact State.read_congr h hcfg c
  · have outside : c < a ∨ a + bs.length ≤ c := by
      by_contra hin
      have hwc := hw (c - a) (by omega)
      rw [Nat.add_sub_cancel' (by omega)] at hwc
      exact hc hwc
    exact (State.read_congr h hcfg c).trans (s.read_writeBytes_outside outside)

/-- Under the policy `fault` no address of the glyph table can be written (R206). -/
theorem not_writable_of_glyph {s : State} (hpolicy : s.cfg.glyphWritePolicy = .fault) (a : Fin 80) :
    ¬Writable s a.val :=
  fun ⟨_, hglyph⟩ => Nat.not_le_of_lt a.isLt (hglyph hpolicy)

/-- An instruction run on a running machine keeps the glyph table. -/
theorem exec_keeps_glyphsIntact {i : Instr} {s t : State} (hs : GlyphsIntact s) (hp : s.phase = .running)
    (h : exec i s = .next t) : GlyphsIntact t := by
  obtain ⟨hcfg, hmem⟩ := exec_memory h
  unfold GlyphsIntact
  rw [hcfg]
  intro _ hpolicy a
  rw [hmem.read_of_not_writable hcfg (not_writable_of_glyph hpolicy a)]
  exact hs hp hpolicy a

/-- The addresses below 0x200 read after a load as the glyph table and zeros, whatever the image (R140, R702). -/
theorem loadImage_read_below {s : State} {bytes : List Byte} (hl : bytes.length ≤ 3584) {a : Nat} (ha : a < 0x200) :
    (loadImage bytes s).read a = Memory.unlisted s.cfg.glyphTable a := by
  rw [loadImage_of_le hl]
  refine Memory.read_image.trans (dif_neg ?_)
  rintro ⟨horigin, -⟩
  exact Nat.not_le_of_lt ha horigin

/-- A load installs the glyph table (R131, R702). -/
theorem loadImage_glyphsIntact {s : State} {bytes : List Byte} (hl : bytes.length ≤ 3584) :
    GlyphsIntact (loadImage bytes s) := by
  intro _ _ a
  rw [loadImage_read_below hl (Nat.lt_trans a.isLt (by decide)), loadImage_of_le hl]
  exact dif_pos a.isLt

/-- Settles O13: under the policy `fault` an instruction writes no address below 0x050, memory after a load reads there
as GLYPH_TABLE, and no other unit changes memory or sets the machine running. -/
theorem stepKeepsGlyphTable : Obligations.StepKeepsGlyphTable :=
  step_preserves
    (take := fun _ hs => hs)
    (fault := fun _ _ _ hs => hs)
    (instr := fun _ _ _ _ hs hp _ _ _ hx => exec_keeps_glyphsIntact hs hp hx)
    (timers := fun _ _ _ hs => hs)
    (key := fun _ _ _ hs _ _ => hs)
    (changed := fun _ _ hs => hs)
    (ended := fun _ _ hp => by cases hp)
    (load := fun _ _ _ hl => loadImage_glyphsIntact hl)

end Sys2Proof.Machine

/-! SUPPORT. The decoder and the encoder (30_encoding.md): the fields of a word and the words of fields, the two round
trips, and the words with no handler. -/

namespace Sys2Proof

/-! ### The six fields are the digits (R301) -/

theorem opField_lt (w : Word) : opField w < 16 := Nat.div_lt_of_lt_mul w.isLt

theorem toNat_nnField (w : Word) : (nnField w).toNat = w.toNat % 256 := BitVec.toNat_ofNat ..

theorem toNat_nnnField (w : Word) : (nnnField w).toNat = w.toNat % 4096 := BitVec.toNat_ofNat ..

/-- Settles O5: each field is a quotient and a remainder of the word's value. -/
theorem fieldsAreTheDigits : Obligations.FieldsAreTheDigits := by
  intro w
  have hlt := opField_lt w
  rw [toNat_nnnField, toNat_nnField]
  simp only [opField, xField, yField, nField] at hlt ⊢
  omega

/-! ### The fields of the three word forms -/

theorem toNat_wordXYN {op : Nat} (hop : op < 16) (x y n : Nibble) :
    (wordXYN op x y n).toNat = op * 4096 + x.val * 256 + y.val * 16 + n.val :=
  (BitVec.toNat_ofNat ..).trans (Nat.mod_eq_of_lt (by omega))

theorem toNat_wordXNN {op : Nat} (hop : op < 16) (x : Nibble) (nn : Byte) :
    (wordXNN op x nn).toNat = op * 4096 + x.val * 256 + nn.toNat :=
  (BitVec.toNat_ofNat ..).trans (Nat.mod_eq_of_lt (by omega))

theorem toNat_wordNNN {op : Nat} (hop : op < 16) (nnn : BitVec 12) :
    (wordNNN op nnn).toNat = op * 4096 + nnn.toNat :=
  (BitVec.toNat_ofNat ..).trans (Nat.mod_eq_of_lt (by omega))

section
variable {op : Nat} (hop : op < 16) (x y n : Nibble) (nn : Byte) (nnn : BitVec 12)
include hop

@[simp] theorem opField_wordXYN : opField (wordXYN op x y n) = op := by
  rw [opField, toNat_wordXYN hop]; omega

@[simp] theorem xField_wordXYN : xField (wordXYN op x y n) = x := by
  apply Fin.ext; simp only [xField, toNat_wordXYN hop]; omega

@[simp] theorem yField_wordXYN : yField (wordXYN op x y n) = y := by
  apply Fin.ext; simp only [yField, toNat_wordXYN hop]; omega

@[simp] theorem nField_wordXYN : nField (wordXYN op x y n) = n := by
  apply Fin.ext; simp only [nField, toNat_wordXYN hop]; omega

@[simp] theorem opField_wordXNN : opField (wordXNN op x nn) = op := by
  rw [opField, toNat_wordXNN hop]; omega

@[simp] theorem xField_wordXNN : xField (wordXNN op x nn) = x := by
  apply Fin.ext; simp only [xField, toNat_wordXNN hop]; omega

@[simp] theorem nnField_wordXNN : nnField (wordXNN op x nn) = nn := by
  apply BitVec.eq_of_toNat_eq; rw [toNat_nnField, toNat_wordXNN hop]; omega

@[simp] theorem opField_wordNNN : opField (wordNNN op nnn) = op := by
  rw [opField, toNat_wordNNN hop]; omega

@[simp] theorem nnnField_wordNNN : nnnField (wordNNN op nnn) = nnn := by
  apply BitVec.eq_of_toNat_eq; rw [toNat_nnnField, toNat_wordNNN hop]; omega

end

/-! ### A word is the word of its fields -/

section
variable {w : Word} {op : Nat} (hop : opField w = op)
include hop

theorem wordXYN_of_fields {n : Nibble} (hn : nField w = n) : wordXYN op (xField w) (yField w) n = w := by
  subst hop hn
  apply BitVec.eq_of_toNat_eq
  rw [toNat_wordXYN (opField_lt w)]
  simp only [opField, xField, yField, nField]
  omega

theorem wordXNN_of_fields {nn : Byte} (hnn : nnField w = nn) : wordXNN op (xField w) nn = w := by
  subst hop hnn
  apply BitVec.eq_of_toNat_eq
  rw [toNat_wordXNN (opField_lt w), toNat_nnField]
  simp only [opField, xField]
  omega

theorem wordNNN_of_fields : wordNNN op (nnnField w) = w := by
  subst hop
  apply BitVec.eq_of_toNat_eq
  rw [toNat_wordNNN (opField_lt w), toNat_nnnField]
  simp only [opField]
  omega

end

/-! ### Decoding the word of an instruction -/

/-- A well-formed instruction's word decodes to it: the decoder reads back from the word form what `encode` put into
it, and the opcode's fixed digits select the instruction's own branch. -/
theorem decode_encode {strict : Bool} {i : Instr} (h : i.wf strict = true) : decode strict (encode i) = .ok i := by
  cases i
  case jp | call | ldI | jpV0 | seImm | sneImm | ldImm | addImm | rnd | drw => simp [encode, decode]
  case cls | ret => cases strict <;> simp_all [encode, decode, decode0, Instr.wf]
  case seReg | sneReg => cases strict <;> simp_all [encode, decode, Instr.wf]
  case ldReg | orReg | andReg | xorReg | addReg | subReg | shr | subnReg | shl => simp [encode, decode, decode8]
  case skp | sknp => simp [encode, decode, decodeE]
  case ldVxDt | ldVxKey | ldDtVx | ldStVx | addI | ldF | ldB | store | load => simp [encode, decode, decodeF]

/-- Settles O1: the cases of the instruction, by the family of its opcode. -/
theorem decodeOfEncodeIsInstruction : Obligations.DecodeOfEncodeIsInstruction :=
  fun _ _ h => decode_encode h

theorem decode_of_encode_eq {strict : Bool} {i : Instr} {w : Word} (hw : encode i = w) (h : i.wf strict = true) :
    decode strict w = .ok i := hw ▸ decode_encode h

/-- Settles O6: each word written out is the word of its instruction. -/
theorem writtenWordsDecode : Obligations.WrittenWordsDecode :=
  ⟨decode_of_encode_eq rfl rfl, decode_of_encode_eq rfl rfl, decode_of_encode_eq rfl rfl,
    decode_of_encode_eq rfl rfl, decode_of_encode_eq rfl rfl, decode_of_encode_eq rfl rfl,
    decode_of_encode_eq rfl rfl, decode_of_encode_eq rfl rfl, decode_of_encode_eq rfl rfl⟩

/-! ### What the decoder can answer -/

/-- The six cases of R330, on the decoder's own fields. -/
def NoHandler (strict : Bool) (w : Word) : Prop :=
  (opField w = 0x0 ∧ nnField w ≠ 0xE0 ∧ nnField w ≠ 0xEE) ∨
  (opField w = 0x0 ∧ (nnField w = 0xE0 ∨ nnField w = 0xEE) ∧ xField w ≠ 0 ∧ strict = true) ∨
  ((opField w = 0x5 ∨ opField w = 0x9) ∧ nField w ≠ 0 ∧ strict = true) ∨
  (opField w = 0x8 ∧ (nField w).val ∈ [0x8, 0x9, 0xA, 0xB, 0xC, 0xD, 0xF]) ∨
  (opField w = 0xE ∧ nnField w ≠ 0x9E ∧ nnField w ≠ 0xA1) ∨
  (opField w = 0xF ∧ nnField w ∉ [0x07, 0x0A, 0x15, 0x18, 0x1E, 0x29, 0x33, 0x55, 0x65])

/-- `r` is an answer to the word `w`: a well-formed instruction whose word is `w`, when `w` has a handler, and
UnknownInstruction of `w` when it has none. -/
inductive Answers (strict : Bool) (w : Word) : Except DecodeError Instr → Prop where
  | instr {i : Instr} (hw : encode i = w) (hwf : i.wf strict = true) (hh : ¬NoHandler strict w) :
      Answers strict w (.ok i)
  | unknown (hh : NoHandler strict w) : Answers strict w (.error (.unknownInstruction w))

section
variable {strict : Bool} {w : Word}

/-- The test of an unused digit lets every digit through in lenient mode, and only 0 under DECODE_STRICT (D8). -/
theorem unused_digit_admitted {d : Nibble} (h : ¬(strict && decide (d ≠ 0)) = true) : strict = false ∨ d = 0 := by
  cases strict
  · exact .inl rfl
  · exact .inr (by simpa using h)

theorem decode0_answers (hop : opField w = 0x0) : Answers strict w (decode0 strict w) := by
  unfold decode0
  split
  case isTrue hx =>
    obtain ⟨hs, hx⟩ : strict = true ∧ xField w ≠ 0 := by simpa using hx
    by_cases hnn : nnField w = 0xE0 ∨ nnField w = 0xEE
    · exact .unknown (.inr (.inl ⟨hop, hnn, hx, hs⟩))
    · exact .unknown (.inl ⟨hop, not_or.mp hnn⟩)
  case isFalse hx =>
    have hd := unused_digit_admitted hx
    split_ifs with hnn hnn
    case neg => exact .unknown (.inl ⟨hop, ‹_›, ‹_›⟩)
    all_goals
      exact .instr (wordXNN_of_fields hop hnn) (by simpa [Instr.wf] using hd)
        (by simpa [NoHandler, hop, hnn] using or_iff_not_imp_right.mp hd)

theorem decode8_answers (hop : opField w = 0x8) : Answers strict w (decode8 w) := by
  have hlt := (nField w).isLt
  unfold decode8
  split
  case h_10 =>
    have hn : (nField w).val ∈ [0x8, 0x9, 0xA, 0xB, 0xC, 0xD, 0xF] := by
      simp only [List.mem_cons, List.not_mem_nil, or_false, imp_false] at *
      omega
    exact .unknown (by simpa [NoHandler, hop] using hn)
  all_goals
    rename_i hn
    exact .instr (wordXYN_of_fields hop (Fin.ext hn)) rfl (by simp [NoHandler, hop, hn])

theorem decodeE_answers (hop : opField w = 0xE) : Answers strict w (decodeE w) := by
  unfold decodeE
  split_ifs with h9E hA1
  · exact .instr (wordXNN_of_fields hop h9E) rfl (by simp [NoHandler, hop, h9E])
  · exact .instr (wordXNN_of_fields hop hA1) rfl (by simp [NoHandler, hop, hA1])
  · exact .unknown (by simpa [NoHandler, hop] using ⟨h9E, hA1⟩)

theorem decodeF_answers (hop : opField w = 0xF) : Answers strict w (decodeF w) := by
  unfold decodeF
  split_ifs
  case neg => exact .unknown (by simp_all [NoHandler])
  all_goals exact .instr (wordXNN_of_fields hop ‹_›) rfl (by simp [NoHandler, *])

end

/-- R332: every word is answered, and only with what it is owed. -/
theorem decode_answers (strict : Bool) (w : Word) : Answers strict w (decode strict w) := by
  have hlt := opField_lt w
  unfold decode
  split -- the branch of opcode `k` is `h_(k + 1)`
  case h_1 hop => exact decode0_answers hop
  case h_9 hop => exact decode8_answers hop
  case h_15 hop => exact decodeE_answers hop
  case h_16 =>
    have hop : opField w = 0xF := by
      simp only [imp_false] at *
      omega
    exact decodeF_answers hop
  case h_6 hop | h_10 hop =>
    split_ifs with hn
    · exact .unknown (by simp_all [NoHandler])
    · have hd := unused_digit_admitted hn
      exact .instr (wordXYN_of_fields hop rfl) (by simpa [Instr.wf] using hd)
        (by simpa [NoHandler, hop] using or_iff_not_imp_right.mp hd)
  case h_2 hop | h_3 hop | h_11 hop | h_12 hop =>
    exact .instr (wordNNN_of_fields hop) rfl (by simp [NoHandler, hop])
  case h_4 hop | h_5 hop | h_7 hop | h_8 hop | h_13 hop =>
    exact .instr (wordXNN_of_fields hop rfl) rfl (by simp [NoHandler, hop])
  case h_14 hop => exact .instr (wordXYN_of_fields hop rfl) rfl (by simp [NoHandler, hop])

/-- Settles O2: an instruction is an answer only to its own word, and only if it is well-formed. -/
theorem encodeOfDecodeIsWord : Obligations.EncodeOfDecodeIsWord := by
  intro strict w i hd
  have h := decode_answers strict w
  rw [hd] at h
  cases h with
  | instr hw hwf _ => exact ⟨hw, hwf⟩

/-- Settles O4: the answers are of these two kinds. -/
theorem decoderIsTotal : Obligations.DecoderIsTotal := by
  intro strict w
  have h := decode_answers strict w
  generalize decode strict w = r at h ⊢
  cases h with
  | @instr i _ _ _ => exact .inl ⟨i, rfl⟩
  | unknown _ => exact .inr rfl

theorem decode_eq_unknown_iff (strict : Bool) (w : Word) :
    decode strict w = .error (.unknownInstruction w) ↔ NoHandler strict w := by
  have h := decode_answers strict w
  generalize decode strict w = r at h ⊢
  cases h with
  | instr _ _ hh => simp [hh]
  | unknown hh => simp [hh]

theorem nnField_eq_iff (w : Word) (nn : Byte) : nnField w = nn ↔ w.toNat % 256 = nn.toNat := by
  rw [← toNat_nnField, BitVec.toNat_inj]

/-- Settles O3: the obligation writes the six cases on the word's value. -/
theorem unknownWordsAreExactlyThese : Obligations.UnknownWordsAreExactlyThese := by
  intro strict w
  rw [decode_eq_unknown_iff]
  simp [NoHandler, nnField_eq_iff, opField, xField, nField, Fin.ext_iff]

end Sys2Proof

/-! SUPPORT. The word of an instruction, in both decoding modes (30_encoding.md R303, R330, R332). -/

namespace Sys2Proof

/-- In lenient mode every field admits all its values (R330). -/
theorem Instr.wf_lenient (i : Instr) : i.wf false = true := by
  cases i <;> rfl

/-- The lenient decoder reads every instruction back from its word. -/
theorem encode_injective : Function.Injective encode := fun i j h => by
  have hi := decode_encode i.wf_lenient
  rw [h, decode_encode j.wf_lenient] at hi
  cases hi
  rfl

/-- The word of an instruction that is not well-formed has no other reading, so it has no handler. -/
theorem decode_encode_of_not_wf {strict : Bool} {i : Instr} (h : ¬i.wf strict = true) :
    decode strict (encode i) = .error (.unknownInstruction (encode i)) := by
  have answer := decode_answers strict (encode i)
  generalize decode strict (encode i) = r at answer ⊢
  cases answer with
  | instr hw hwf _ => exact absurd (encode_injective hw ▸ hwf) h
  | unknown _ => rfl

/-- The encoding alone decides which word an instruction is: the decoder agrees with it in both modes. -/
theorem Machine.isWordOf_of_encode_eq {w : Nat} {i : Instr} (hw : encode i = BitVec.ofNat 16 w) :
    Machine.IsWordOf w i := by
  refine ⟨hw, fun strict => ?_⟩
  rw [← hw]
  split
  case isTrue hwf => exact decode_encode hwf
  case isFalse hwf => exact decode_encode_of_not_wf hwf

end Sys2Proof

/-! SUPPORT. The display instructions (40_display.md): the cleared display, the draw as the loop of R404, and the pixels
a draw at fixed coordinates flips. -/

namespace Sys2Proof.Machine

/-! ### 00E0 (R400) -/

/-- The state 00E0 leaves. -/
def cleared (s : State) : State :=
  ({ s with Pix := Vector.replicate 64 (Vector.replicate 32 false), changed := true } : State).advance

theorem exec_cls (d : Nibble) (s : State) : exec (.cls d) s = .next (cleared s) := rfl

theorem pixel_cleared (s : State) (px : Fin 64) (py : Fin 32) : (cleared s).pixel px py = false := by
  simp [State.pixel, cleared]

theorem sameBut_cleared (s : State) : SameBut [] [.Pix, .changed, .pc] s (cleared s) :=
  (sameBut_Pix s (cleared s).Pix).trans (sameBut_changed _ true) |>.trans (sameBut_pc _ _)

theorem isWordOf_cls (d : Nibble) : IsWordOf (0x00E0 + 256 * d.val) (.cls d) :=
  isWordOf_of_encode_eq <| congrArg (BitVec.ofNat 16) <| by
    show 0 * 4096 + d.val * 256 + 0xE0 = _
    omega

/-- Settles O46: the state 00E0 leaves, part by part. -/
theorem clearDisplay : Obligations.ClearDisplay := fun d s =>
  ⟨isWordOf_cls d, cleared s, exec_cls d s, pixel_cleared s, rfl, rfl, sameBut_cleared s⟩

/-! ### Dxyn completes or raises (R404, R406) -/

/-- The state Dxyn leaves when it completes: all the turns of its loop, then changed and pc. -/
def drawn (x y : Reg) (n : Nibble) (s : State) : State :=
  ({ drawTurns x y s (8 * n.val) with changed := true } : State).advance

section
variable (x y : Reg) (n : Nibble) (s : State)

@[simp] theorem getV_drawn (r : Reg) : (drawn x y n s).getV r = (drawTurns x y s (8 * n.val)).getV r := rfl

@[simp] theorem pixel_drawn (px : Fin 64) (py : Fin 32) :
    (drawn x y n s).pixel px py = (drawTurns x y s (8 * n.val)).pixel px py := rfl

@[simp] theorem drawn_pc : (drawn x y n s).pc = s.pc + 2 := by
  show (drawTurns x y s (8 * n.val)).pc + 2 = _
  rw [(drawTurns_onlyDrawn x y s (8 * n.val)).1]

theorem sameBut_drawn : SameBut [VF] [.Pix, .changed, .pc] s (drawn x y n s) :=
  (drawTurns_onlyDrawn x y s _).sameBut.trans (sameBut_changed _ true) |>.trans (sameBut_pc _ _)

theorem isWordOf_drw : IsWordOf (0xD000 + 256 * x.val + 16 * y.val + n.val) (.drw x y n) :=
  isWordOf_of_encode_eq <| congrArg (BitVec.ofNat 16) <| by omega

end

section
variable {x y : Reg} {n : Nibble} {s : State}

theorem exec_drw_of_readable (h : ∀ row, row < n.val → Readable (indexAddr s row)) :
    exec (.drw x y n) s = .next (drawn x y n s) := by
  have passes : firstFailing resolve (indexAddr s 0) n.val = none := firstFailing_resolve_none h
  rw [exec, execDrw, passes, guarded_none, drawSprite_eq_drawTurns, drawn]

theorem exec_drw_of_not_readable {row : Nat} (hrow : row < n.val) (h : ∀ j, j < row → Readable (indexAddr s j))
    (hn : ¬Readable (indexAddr s row)) :
    exec (.drw x y n) s = .next (faulted .outOfBounds (indexAddr s row) (.drw x y n) s) := by
  have fails : firstFailing resolve (indexAddr s 0) n.val = some ⟨.outOfBounds, indexAddr s row⟩ :=
    firstFailing_resolve_some hrow h hn
  rw [exec, execDrw, fails, guarded_some]
  rfl

end

/-! ### The turns of the loop (R404, R405, R407) -/

/-- Turn `k` of the draw sets VF when its sprite bit and the pixel (px, py) are both 1, and XORs the bit onto that pixel
alone. -/
def TurnXors (x y : Reg) (s : State) (k : Nat) (px : Fin 64) (py : Fin 32) : Prop :=
  (drawTurns x y s (k + 1)).getV VF =
    (if spriteBitAt s k = true ∧ (drawTurns x y s k).pixel px py = true then 1
      else (drawTurns x y s k).getV VF) ∧
  ∀ qx qy, (drawTurns x y s (k + 1)).pixel qx qy =
    if qx = px ∧ qy = py then (drawTurns x y s k).pixel qx qy ^^ spriteBitAt s k
    else (drawTurns x y s k).pixel qx qy

section
variable (x y : Reg) (s : State)

theorem getV_drawTurns_zero : (drawTurns x y s 0).getV VF = 0 := State.getV_setV_same ..

theorem pixel_drawTurns_zero (px : Fin 64) (py : Fin 32) : (drawTurns x y s 0).pixel px py = s.pixel px py := rfl

theorem spriteBit_eq_spriteBitAt (k : Nat) :
    spriteBit s.cfg.spriteBitOrder (s.read (indexAddr s (k / 8))) (k % 8) = spriteBitAt s k := by
  unfold spriteBit spriteBitAt
  cases s.cfg.spriteBitOrder <;> rfl

/-- In a draw only VF can differ from the registers before it, so the coordinate depends on VF alone (R407). -/
theorem drawCoord_eq_coordAt {s t : State} (h : OnlyDrawn s t) (r : Reg) :
    drawCoord r s t = coordAt s (t.getV VF) r := by
  obtain ⟨ht, hV⟩ := h
  have hcfg : t.cfg = s.cfg := by rw [ht]
  unfold drawCoord coordAt
  rw [hcfg]
  cases s.cfg.drawOperandRead with
  | latched => simp
  | live =>
    by_cases hr : r = VF
    · simp [hr]
    · simp [hr, hV r hr]

/-- One turn, in the terms of the statements: `drawTurns_succ` with the sprite's bit and the coordinates of R407. -/
theorem turnXors_of_coordAt {x y : Reg} {s : State} {k : Nat} {px : Fin 64} {py : Fin 32}
    (hx : px.val = (coordAt s ((drawTurns x y s k).getV VF) x + k % 8) % 64)
    (hy : py.val = (coordAt s ((drawTurns x y s k).getV VF) y + k / 8) % 32) :
    TurnXors x y s k px py := by
  have drawnSoFar := drawTurns_onlyDrawn x y s k
  rw [← drawCoord_eq_coordAt drawnSoFar] at hx hy
  rw [TurnXors, ← spriteBit_eq_spriteBitAt]
  exact drawTurns_succ x y s k px py hx hy

end

/-- Settles O47: the flag and the display of turn `k` are those of `drawTurns`, whose last turn is the draw. -/
theorem drawFollowsTheLoop : Obligations.DrawFollowsTheLoop := by
  intro x y n s
  refine ⟨isWordOf_drw x y n, fun hread => ?_, fun row hrow => exec_drw_of_not_readable hrow⟩
  refine ⟨drawn x y n s, exec_drw_of_readable hread, rfl, drawn_pc x y n s, sameBut_drawn x y n s,
    fun k => (drawTurns x y s k).getV VF, fun k => (drawTurns x y s k).pixel,
    getV_drawTurns_zero x y s, pixel_drawTurns_zero x y s, ?_, rfl, fun _ _ => rfl⟩
  rintro k bit px py - rfl hx hy
  exact turnXors_of_coordAt hx hy

/-! ### A draw at fixed coordinates (R404, R407) -/

/-- Turn `k` of a draw at (V[x], V[y]) has a 1 bit of the sprite and falls on the pixel (px, py). -/
def TurnCovers (x y : Reg) (s : State) (k : Nat) (px : Fin 64) (py : Fin 32) : Prop :=
  spriteBitAt s k = true ∧ px.val = ((s.getV x).toNat + k % 8) % 64 ∧ py.val = ((s.getV y).toNat + k / 8) % 32

/-- Some turn before `k` covers the pixel. -/
def CoveredBefore (x y : Reg) (s : State) (k : Nat) (px : Fin 64) (py : Fin 32) : Prop :=
  ∃ j, j < k ∧ TurnCovers x y s j px py

/-- Turn `k` covers a pixel that was set before the draw. -/
def TurnCollides (x y : Reg) (s : State) (k : Nat) : Prop :=
  ∃ px py, TurnCovers x y s k px py ∧ s.pixel px py = true

/-- Some turn before `k` covers such a pixel. -/
def CollidesBefore (x y : Reg) (s : State) (k : Nat) : Prop :=
  ∃ px py, CoveredBefore x y s k px py ∧ s.pixel px py = true

/-- Every turn falls on a pixel of the display. -/
theorem exists_turn_place (x y : Reg) (s : State) (k : Nat) : ∃ (px : Fin 64) (py : Fin 32),
    px.val = ((s.getV x).toNat + k % 8) % 64 ∧ py.val = ((s.getV y).toNat + k / 8) % 32 :=
  ⟨columnOf _, rowOf _, rfl, rfl⟩

section
variable {x y : Reg} {s : State} {k : Nat} {px : Fin 64} {py : Fin 32}

/-- The sprite covers what one of its 8 * n turns covers. -/
theorem spriteCovers_iff {n : Nat} : SpriteCovers x y n s px py ↔ CoveredBefore x y s (8 * n) px py := by
  constructor
  · rintro ⟨row, col, hrow, hcol, hbit, hx, hy⟩
    have hdiv : (8 * row + col) / 8 = row := by omega
    have hmod : (8 * row + col) % 8 = col := by omega
    exact ⟨8 * row + col, by omega, hbit, by rwa [hmod], by rwa [hdiv]⟩
  · rintro ⟨k, hk, hbit, hx, hy⟩
    exact ⟨k / 8, k % 8, by omega, by omega, by rwa [Nat.div_add_mod], hx, hy⟩

theorem not_coveredBefore_zero : ¬CoveredBefore x y s 0 px py := fun ⟨_, hj, _⟩ => Nat.not_lt_zero _ hj

theorem coveredBefore_succ_iff :
    CoveredBefore x y s (k + 1) px py ↔ CoveredBefore x y s k px py ∨ TurnCovers x y s k px py :=
  Nat.exists_lt_succ_right

theorem not_collidesBefore_zero : ¬CollidesBefore x y s 0 := fun ⟨_, _, h, _⟩ => not_coveredBefore_zero h

theorem collidesBefore_succ_iff :
    CollidesBefore x y s (k + 1) ↔ CollidesBefore x y s k ∨ TurnCollides x y s k := by
  simp only [CollidesBefore, TurnCollides, coveredBefore_succ_iff, or_and_right, exists_or]

/-- Within one draw each pixel is covered at most once: 8 columns of 64, and fewer than 32 rows (R404). -/
theorem TurnCovers.not_coveredBefore (hk : k < 256) (h : TurnCovers x y s k px py) :
    ¬CoveredBefore x y s k px py := by
  rintro ⟨j, hj, -, hxj, hyj⟩
  obtain ⟨-, hxk, hyk⟩ := h
  omega

end

section
variable {x y : Reg} {s : State} {k : Nat}

/-- Under `latched`, or for a register other than VF, the coordinate does not move during the draw (R407). -/
theorem coordAt_of_fixed {r : Reg} (h : s.cfg.drawOperandRead = .latched ∨ r ≠ VF) (vf : Byte) :
    coordAt s vf r = (s.getV r).toNat := by
  refine if_neg fun ⟨hr, hlive⟩ => ?_
  rcases h with h | h
  · rw [h] at hlive
    cases hlive
  · exact h hr

variable (hfix : s.cfg.drawOperandRead = .latched ∨ (x ≠ VF ∧ y ≠ VF))
include hfix

/-- A turn at fixed coordinates. -/
theorem turnXors_of_fixed {px : Fin 64} {py : Fin 32} (hx : px.val = ((s.getV x).toNat + k % 8) % 64)
    (hy : py.val = ((s.getV y).toNat + k / 8) % 32) :
    TurnXors x y s k px py := by
  refine turnXors_of_coordAt ?_ ?_
  · rwa [coordAt_of_fixed (hfix.imp_right And.left)]
  · rwa [coordAt_of_fixed (hfix.imp_right And.right)]

/-- A turn flips the pixel it covers. -/
theorem pixel_drawTurns_succ_of_turnCovers {px : Fin 64} {py : Fin 32} (h : TurnCovers x y s k px py) :
    (drawTurns x y s (k + 1)).pixel px py = !(drawTurns x y s k).pixel px py := by
  obtain ⟨hbit, hx, hy⟩ := h
  obtain ⟨-, hpix⟩ := turnXors_of_fixed hfix hx hy
  rw [hpix, if_pos ⟨rfl, rfl⟩, hbit, Bool.xor_true]

/-- A turn leaves every pixel it does not cover. -/
theorem pixel_drawTurns_succ_of_not_turnCovers {qx : Fin 64} {qy : Fin 32} (h : ¬TurnCovers x y s k qx qy) :
    (drawTurns x y s (k + 1)).pixel qx qy = (drawTurns x y s k).pixel qx qy := by
  obtain ⟨px, py, hx, hy⟩ := exists_turn_place x y s k
  obtain ⟨-, hpix⟩ := turnXors_of_fixed hfix hx hy
  rw [hpix]
  split
  case isTrue hplace =>
    obtain ⟨rfl, rfl⟩ := hplace
    have hbit : spriteBitAt s k = false := Bool.eq_false_of_not_eq_true fun hbit => h ⟨hbit, hx, hy⟩
    rw [hbit, Bool.xor_false]
  case isFalse => rfl

/-- The first `k` turns flip exactly the pixels they cover, since none is covered twice. -/
theorem pixel_drawTurns_ne_iff (hk : k ≤ 256) (px : Fin 64) (py : Fin 32) :
    (drawTurns x y s k).pixel px py ≠ s.pixel px py ↔ CoveredBefore x y s k px py := by
  induction k with
  | zero => exact iff_of_false (fun hne => hne rfl) not_coveredBefore_zero
  | succ k ih =>
    have ih := ih (by omega)
    rw [coveredBefore_succ_iff]
    by_cases hturn : TurnCovers x y s k px py
    · have untouched := not_not.mp (mt ih.mp (hturn.not_coveredBefore hk))
      rw [pixel_drawTurns_succ_of_turnCovers hfix hturn, untouched]
      exact iff_of_true (Bool.not_ne_self _) (.inr hturn)
    · rw [pixel_drawTurns_succ_of_not_turnCovers hfix hturn, ih, or_iff_left hturn]

/-- A pixel that turn `k` covers is before that turn as it was before the draw. -/
theorem pixel_drawTurns_of_turnCovers (hk : k < 256) {px : Fin 64} {py : Fin 32} (h : TurnCovers x y s k px py) :
    (drawTurns x y s k).pixel px py = s.pixel px py :=
  not_not.mp (mt (pixel_drawTurns_ne_iff hfix hk.le px py).mp (h.not_coveredBefore hk))

/-- A turn that covers a pixel set before the draw sets VF. -/
theorem getV_drawTurns_succ_of_turnCollides (hk : k < 256) (h : TurnCollides x y s k) :
    (drawTurns x y s (k + 1)).getV VF = 1 := by
  obtain ⟨px, py, hturn, hset⟩ := h
  have untouched := pixel_drawTurns_of_turnCovers hfix hk hturn
  obtain ⟨hbit, hx, hy⟩ := hturn
  obtain ⟨hvf, -⟩ := turnXors_of_fixed hfix hx hy
  rw [hvf, if_pos ⟨hbit, untouched.trans hset⟩]

/-- A turn that covers no such pixel leaves VF. -/
theorem getV_drawTurns_succ_of_not_turnCollides (hk : k < 256) (h : ¬TurnCollides x y s k) :
    (drawTurns x y s (k + 1)).getV VF = (drawTurns x y s k).getV VF := by
  obtain ⟨px, py, hx, hy⟩ := exists_turn_place x y s k
  obtain ⟨hvf, -⟩ := turnXors_of_fixed hfix hx hy
  rw [hvf]
  refine if_neg fun ⟨hbit, hset⟩ => h ⟨px, py, ⟨hbit, hx, hy⟩, ?_⟩
  rwa [← pixel_drawTurns_of_turnCovers hfix hk ⟨hbit, hx, hy⟩]

/-- After `k` turns VF is 1 when they covered a pixel set before the draw, and else 0. -/
theorem getV_drawTurns_VF (hk : k ≤ 256) :
    (CollidesBefore x y s k → (drawTurns x y s k).getV VF = 1) ∧
    (¬CollidesBefore x y s k → (drawTurns x y s k).getV VF = 0) := by
  induction k with
  | zero => exact ⟨fun h => absurd h not_collidesBefore_zero, fun _ => getV_drawTurns_zero x y s⟩
  | succ k ih =>
    rw [collidesBefore_succ_iff]
    by_cases hturn : TurnCollides x y s k
    · exact ⟨fun _ => getV_drawTurns_succ_of_turnCollides hfix hk hturn, fun hn => absurd (.inr hturn) hn⟩
    · rw [getV_drawTurns_succ_of_not_turnCollides hfix hk hturn, or_iff_left hturn]
      exact ih (by omega)

/-! ### The drawn display and its flag -/

variable {n : Nibble}

theorem pixel_drawn_ne_iff (px : Fin 64) (py : Fin 32) :
    (drawn x y n s).pixel px py ≠ s.pixel px py ↔ SpriteCovers x y n.val s px py := by
  rw [pixel_drawn, spriteCovers_iff]
  exact pixel_drawTurns_ne_iff hfix (by omega) px py

theorem pixel_drawn_of_covers {px : Fin 64} {py : Fin 32} (h : SpriteCovers x y n.val s px py) :
    (drawn x y n s).pixel px py = !s.pixel px py :=
  Bool.eq_not.mpr ((pixel_drawn_ne_iff hfix px py).mpr h)

theorem pixel_drawn_of_not_covers {px : Fin 64} {py : Fin 32} (h : ¬SpriteCovers x y n.val s px py) :
    (drawn x y n s).pixel px py = s.pixel px py :=
  not_not.mp (mt (pixel_drawn_ne_iff hfix px py).mp h)

theorem getV_drawn_VF_of_collision (h : ∃ px py, SpriteCovers x y n.val s px py ∧ s.pixel px py = true) :
    (drawn x y n s).getV VF = 1 := by
  simp only [spriteCovers_iff] at h
  rw [getV_drawn]
  exact (getV_drawTurns_VF hfix (by omega)).1 h

theorem getV_drawn_VF_of_no_collision (h : ∀ px py, SpriteCovers x y n.val s px py → s.pixel px py = false) :
    (drawn x y n s).getV VF = 0 := by
  simp only [spriteCovers_iff] at h
  rw [getV_drawn]
  refine (getV_drawTurns_VF hfix (by omega)).2 fun ⟨px, py, hcovered, hset⟩ => ?_
  exact Bool.false_ne_true ((h px py hcovered).symm.trans hset)

end

/-- Settles O48: each pixel is covered by at most one turn, and the turn that covers it flips it. -/
theorem drawFlipsCoveredPixels : Obligations.DrawFlipsCoveredPixels := fun x y n s hread hfix =>
  ⟨drawn x y n s, exec_drw_of_readable hread, fun _ _ => pixel_drawn_of_covers hfix,
    fun _ _ => pixel_drawn_of_not_covers hfix, getV_drawn_VF_of_collision hfix, getV_drawn_VF_of_no_collision hfix⟩

/-! ### The same sprite drawn twice (R408) -/

/-- What a sprite covers depends on the two coordinates, I, memory and the bit order alone. -/
theorem spriteCovers_congr {x y : Reg} {n : Nat} {s t : State} (hI : t.I = s.I) (hcfg : t.cfg = s.cfg)
    (hread : ∀ a, t.read a = s.read a) (hx : t.getV x = s.getV x) (hy : t.getV y = s.getV y) (px : Fin 64)
    (py : Fin 32) : SpriteCovers x y n t px py ↔ SpriteCovers x y n s px py := by
  simp only [SpriteCovers, spriteBitAt, hI, hcfg, hread, hx, hy]

section
variable (x y : Reg) (n : Nibble) (s : State)

theorem indexAddr_drawn (row : Nat) : indexAddr (drawn x y n s) row = indexAddr s row := by
  have hI : (drawn x y n s).I = s.I := (sameBut_drawn x y n s).2 .I (by decide)
  rw [indexAddr, hI, indexAddr]

/-- A draw that does not write its own coordinates leaves what its sprite covers. -/
theorem spriteCovers_drawn {x y : Reg} (hx : x ≠ VF) (hy : y ≠ VF) (px : Fin 64) (py : Fin 32) :
    SpriteCovers x y n.val (drawn x y n s) px py ↔ SpriteCovers x y n.val s px py := by
  obtain ⟨registers, parts⟩ := sameBut_drawn x y n s
  exact spriteCovers_congr (parts .I (by decide)) (parts .cfg (by decide)) (parts .Mem (by decide))
    (registers x (by simpa using hx)) (registers y (by simpa using hy)) px py

end

/-- Settles O49: the second draw covers the pixels of the first, and finds there the complement of the first display. -/
theorem drawTwiceRestoresDisplay : Obligations.DrawTwiceRestoresDisplay := by
  intro x y n s hx hy hread
  have covers := spriteCovers_drawn n s hx hy
  have hread' : ∀ row, row < n.val → Readable (indexAddr (drawn x y n s) row) := fun row hrow => by
    rw [indexAddr_drawn]
    exact hread row hrow
  have first : ∀ {px py}, SpriteCovers x y n.val s px py → (drawn x y n s).pixel px py = !s.pixel px py :=
    pixel_drawn_of_covers (.inr ⟨hx, hy⟩)
  refine ⟨drawn x y n s, drawn x y n (drawn x y n s), exec_drw_of_readable hread, exec_drw_of_readable hread',
    fun px py => ?_, fun ⟨px, py, hc, hclear⟩ => ?_, fun hset => ?_⟩
  · by_cases hc : SpriteCovers x y n.val s px py
    · rw [pixel_drawn_of_covers (.inr ⟨hx, hy⟩) ((covers px py).mpr hc), first hc, Bool.not_not]
    · rw [pixel_drawn_of_not_covers (.inr ⟨hx, hy⟩) (mt (covers px py).mp hc),
        pixel_drawn_of_not_covers (.inr ⟨hx, hy⟩) hc]
  · refine getV_drawn_VF_of_collision (.inr ⟨hx, hy⟩) ⟨px, py, (covers px py).mpr hc, ?_⟩
    rw [first hc, hclear, Bool.not_false]
  · refine getV_drawn_VF_of_no_collision (.inr ⟨hx, hy⟩) fun px py hc => ?_
    have hc := (covers px py).mp hc
    rw [first hc, hset px py hc, Bool.not_true]

end Sys2Proof.Machine

/-! SUPPORT. Control transfer (41_control_flow.md): the push and the pop, the jumps, the call and the return, each
completed or raising the first of its faults, and a call followed by its return. -/

namespace Sys2Proof.Machine

/-! ### Jumps and faults -/

/-- A guarded instruction whose check fails takes that fault (R603, R604). -/
theorem guarded_eq_faulted {check : Option Cause} {kind : FaultKind} {info : Nat} (i : Instr) (s done : State)
    (h : check = some ⟨kind, info⟩) : guarded check (encode i) s done = .next (faulted kind info i s) := by
  rw [h, guarded_some]
  rfl

/-- Below 4096 a jump's target fits in pc. -/
theorem toNat_jump_pc (s : State) {a : Nat} (h : a < 4096) : (s.jump a).pc.toNat = a :=
  (BitVec.toNat_ofNat ..).trans (Nat.mod_eq_of_lt (by omega))

theorem sameBut_jump (s : State) (a : Nat) : SameBut [] [.pc] s (s.jump a) := sameBut_pc s _

theorem resolve_of_le {a : Nat} (h : 4096 ≤ a) : resolve a = some ⟨.outOfBounds, a⟩ :=
  resolve_eq_some_iff.mpr ⟨h, rfl⟩

/-- Settles O30: 1nnn is a jump, and no check guards it. -/
theorem jumpSetsPc : Obligations.JumpSetsPc := fun nnn s =>
  ⟨isWordOf_of_encode_eq rfl, s.jump nnn.toNat, rfl, toNat_jump_pc s nnn.isLt, sameBut_jump s _⟩

theorem exec_jpV0_of_lt {nnn : BitVec 12} {s : State} (h : indexedTarget nnn s < 4096) :
    exec (.jpV0 nnn) s = .next (s.jump (indexedTarget nnn s)) := by
  rw [exec, execJpV0, resolve_eq_none_iff.mpr h, guarded_none]

theorem exec_jpV0_of_le {nnn : BitVec 12} {s : State} (h : 4096 ≤ indexedTarget nnn s) :
    exec (.jpV0 nnn) s = .next (faulted .outOfBounds (indexedTarget nnn s) (.jpV0 nnn) s) :=
  guarded_eq_faulted _ _ _ (resolve_of_le h)

/-- Settles O33: the check of the target decides between the jump and the fault. -/
theorem indexedJump : Obligations.IndexedJump := fun _ s =>
  ⟨isWordOf_of_encode_eq rfl, fun h => ⟨_, exec_jpV0_of_lt h, toNat_jump_pc s h, sameBut_jump s _⟩,
    exec_jpV0_of_le⟩

/-! ### The push (R422) -/

theorem toNat_hiByte (w : Word) : (hiByte w).toNat = w.toNat / 256 :=
  (BitVec.toNat_ofNat ..).trans (Nat.mod_eq_of_lt (by omega))

theorem toNat_loByte (w : Word) : (loByte w).toNat = w.toNat % 256 := BitVec.toNat_ofNat ..

section
variable {s : State} (a : Word)

/-- The high byte of the pushed word is at the new top (R209, R422). -/
theorem read_push_top (hm : Memory.wf s.cfg.glyphTable s.Mem = true) :
    (push a s).read (pushAddr s).toNat = hiByte a :=
  s.read_writeBytes_inside hm (bs := [hiByte a, loByte a]) (i := 0) (by simp)

/-- The low byte of the pushed word is at the address after the new top (R209, R422). -/
theorem read_push_top_succ (hm : Memory.wf s.cfg.glyphTable s.Mem = true) :
    (push a s).read ((pushAddr s).toNat + 1) = loByte a :=
  s.read_writeBytes_inside hm (bs := [hiByte a, loByte a]) (i := 1) (by simp)

theorem memSameOutside_push : MemSameOutside (pushAddr s).toNat 2 s (push a s) := fun _ outside =>
  s.read_writeBytes_outside outside

theorem sameBut_push : SameBut [] [.Mem, .SP] s (push a s) := (sameBut_writeBytes s _ _).trans (sameBut_SP _ _)

/-- The word a push stored is the word the next pop returns. -/
theorem popValue_push (hm : Memory.wf s.cfg.glyphTable s.Mem = true) : popValue (push a s) = a := by
  apply BitVec.eq_of_toNat_eq
  have hSP : (push a s).SP = pushAddr s := rfl
  rw [popValue_toNat, hSP, read_push_top a hm, read_push_top_succ a hm, toNat_hiByte, toNat_loByte]
  omega

/-- A pop undoes the SP of a push, whether or not the push wrapped (R425). -/
theorem pop_push_SP (hs : AddressRegistersFit s) : (pop (push a s)).SP = s.SP := by
  obtain ⟨hwf, -, -, hSP⟩ := hs
  have hpow := le_two_pow_addrRegWidth_of_wf hwf
  have hwidth : 1 ≤ s.cfg.addrRegWidth.val := Nat.pos_of_ne_zero fun h0 => by
    rw [h0] at hpow
    omega
  exact BitVec.eq_of_toNat_eq (wrapAddr_back hwidth hSP)

/-- A stack within its bounds is not empty after a push, since SP did not wrap back to STACK_BASE (R422, R423). -/
theorem not_stackEmpty_push (hs : StackInBounds s) (hp : s.phase = .running) (hfits : StackFits s.cfg)
    (hfull : ¬StackFull s) : ¬StackEmpty (push a s) := by
  rintro ⟨⟨depth, hdepth⟩, hSP⟩
  obtain ⟨entries, hle, hentries⟩ := hs hp hfits depth hdepth
  have holds : HoldsEntries s depth entries := ⟨hdepth, hfits depth hdepth, hle, hentries⟩
  have htop := holds.pushAddr_toNat (holds.lt_depth (overflowCheck_of_not_full hfull))
  have hbase : pushAddr s = s.cfg.stackBase := hSP
  rw [hbase] at htop
  omega

end

theorem pushCheck_of_full {s : State} (h : StackFull s) : pushCheck s = some ⟨.stackOverflow, s.SP.toNat⟩ := by
  rw [pushCheck, overflowCheck_of_full h, Option.some_or]

/-- With room on the stack a push fails at the first byte of the entry that cannot be written (R422, R605). -/
theorem pushCheck_of_not_writable {s : State} {k : Nat} (hfull : ¬StackFull s) (hk : k < 2)
    (h : ∀ j, j < k → Writable s ((pushAddr s).toNat + j)) (hn : ¬Writable s ((pushAddr s).toNat + k)) :
    pushCheck s = some ⟨writeFaultKind ((pushAddr s).toNat + k), (pushAddr s).toNat + k⟩ := by
  rw [pushCheck, overflowCheck_of_not_full hfull, Option.none_or, firstFailing_checkWrite_some hk h hn]

/-! ### The call (R421) -/

/-- The state 2nnn leaves when it completes. -/
def called (nnn : BitVec 12) (s : State) : State := (push s.pc s).jump nnn.toNat

theorem exec_call_eq_faulted {s : State} {kind : FaultKind} {info : Nat} (nnn : BitVec 12)
    (h : pushCheck s = some ⟨kind, info⟩) : exec (.call nnn) s = .next (faulted kind info (.call nnn) s) :=
  guarded_eq_faulted _ _ _ h

theorem sameBut_called (nnn : BitVec 12) (s : State) : SameBut [] [.pc, .SP, .Mem] s (called nnn s) :=
  ((sameBut_push s.pc).trans (sameBut_jump _ _)).mono (List.Subset.refl _) (by decide)

/-- Settles O31: the checks of the push decide between the push with its jump and the first failing check's fault. -/
theorem callPushesItsAddress : Obligations.CallPushesItsAddress := by
  intro nnn s hm
  refine ⟨isWordOf_of_encode_eq rfl, fun hwidth => ?_, fun hfull h0 h1 => ?_, fun hfull => ?_, fun hfull h0 => ?_,
    fun hfull h0 h1 => ?_⟩
  · rw [pushAddr, wrapAddr_toNat, hwidth]
    rfl
  · refine ⟨called nnn s, exec_call_of_pushCheck (pushCheck_none hfull h0 h1) nnn, ?_, ?_, rfl,
      toNat_jump_pc _ nnn.isLt, memSameOutside_push s.pc, sameBut_called nnn s⟩
    · exact (congrArg BitVec.toNat (read_push_top s.pc hm)).trans (toNat_hiByte _)
    · exact (congrArg BitVec.toNat (read_push_top_succ s.pc hm)).trans (toNat_loByte _)
  · exact exec_call_eq_faulted nnn (pushCheck_of_full hfull)
  · exact exec_call_eq_faulted nnn (pushCheck_of_not_writable (k := 0) hfull (by decide) (fun _ hj => by omega) h0)
  · refine exec_call_eq_faulted nnn (pushCheck_of_not_writable (k := 1) hfull (by decide) (fun j hj => ?_) h1)
    rwa [Nat.lt_one_iff.mp hj]

/-! ### The return (R423, R424) -/

/-- The state 00EE leaves when it completes. -/
def returned (s : State) : State := (pop s).jump (returnTarget s)

theorem popCheck_of_empty {s : State} (h : StackEmpty s) : popCheck s = some ⟨.stackUnderflow, s.SP.toNat⟩ := by
  rw [popCheck, underflowCheck_of_empty h, Option.some_or]

/-- With an entry on the stack a pop fails at the first of its two bytes that cannot be read (R423, R605). -/
theorem popCheck_of_not_readable {s : State} {k : Nat} (hempty : ¬StackEmpty s) (hk : k < 2)
    (h : ∀ j, j < k → Readable (s.SP.toNat + j)) (hn : ¬Readable (s.SP.toNat + k)) :
    popCheck s = some ⟨.outOfBounds, s.SP.toNat + k⟩ := by
  rw [popCheck, underflowCheck_of_not_empty hempty, Option.none_or, firstFailing_resolve_some hk h hn]

/-- The checks of the pop come before that of the target (R428). -/
theorem exec_ret_of_popCheck_some {s : State} {kind : FaultKind} {info : Nat} (d : Nibble)
    (h : popCheck s = some ⟨kind, info⟩) : exec (.ret d) s = .next (faulted kind info (.ret d) s) :=
  guarded_eq_faulted _ _ _ (by rw [h, Option.some_or])

theorem exec_ret_of_target_le {s : State} (d : Nibble) (h : popCheck s = none) (ht : 4096 ≤ returnTarget s) :
    exec (.ret d) s = .next (faulted .outOfBounds (returnTarget s) (.ret d) s) :=
  guarded_eq_faulted _ _ _ (by rw [h, Option.none_or, resolve_of_le ht])

theorem isWordOf_ret (d : Nibble) : IsWordOf (0x00EE + 256 * d.val) (.ret d) :=
  isWordOf_of_encode_eq <| congrArg (BitVec.ofNat 16) <| by
    show 0 * 4096 + d.val * 256 + 0xEE = _
    omega

theorem returnTarget_eq (s : State) :
    returnTarget s = (s.read s.SP.toNat).toNat * 256 + (s.read (s.SP.toNat + 1)).toNat + 2 :=
  congrArg (· + 2) (popValue_toNat s)

theorem sameBut_returned (s : State) : SameBut [] [.pc, .SP] s (returned s) :=
  ((sameBut_SP s _).trans (sameBut_jump _ _)).mono (List.Subset.refl _) (by decide)

/-- At the spec's width a pop moves SP down by 2 mod 65536 (R423). -/
theorem pop_SP_toNat_of_width_16 {s : State} (h : s.cfg.addrRegWidth = 16) :
    (pop s).SP.toNat = (s.SP.toNat + 65534) % 65536 := by
  rw [pop_SP, wrapAddr_toNat, h]
  rfl

/-- Settles O32: the checks of the pop, then that of the target, decide between the return and the first failing check's
fault. -/
theorem returnPopsAndAddsTwo : Obligations.ReturnPopsAndAddsTwo := by
  intro d s
  refine ⟨isWordOf_ret d, fun target htarget => ?_, fun hempty => ?_, fun hempty hSP => ?_, fun hempty hSP => ?_⟩
  · obtain rfl : target = returnTarget s := htarget.trans (returnTarget_eq s).symm
    refine ⟨fun hempty hSP ht => ?_, fun hempty hSP ht => ?_⟩
    · exact ⟨returned s, exec_ret_of_popCheck (popCheck_none hempty hSP) ht d, toNat_jump_pc _ ht,
        pop_SP_toNat_of_width_16, sameBut_returned s⟩
    · exact exec_ret_of_target_le d (popCheck_none hempty hSP) ht
  · exact exec_ret_of_popCheck_some d (popCheck_of_empty hempty)
  · exact exec_ret_of_popCheck_some d
      (popCheck_of_not_readable (k := 0) hempty (by decide) (fun _ hj => by omega) (Nat.not_lt.mpr hSP))
  · have fails := popCheck_of_not_readable (k := 1) hempty (by decide)
      (fun j hj => by unfold Readable; omega) (by unfold Readable; omega)
    rw [hSP] at fails
    exact exec_ret_of_popCheck_some d fails

/-! ### A call and its return (R425) -/

/-- With an empty agenda a running machine's step is the instruction whose word it fetches (R630). -/
theorem step_of_fetch {i : Instr} {s : State} (hagenda : s.agenda = []) (hp : s.phase = .running)
    (hf : s.fault = none) (hw : fetch s = .ok (encode i)) (hwf : i.wf s.cfg.decodeStrict = true) :
    step s = exec i s := by
  have taken : s.takeUnit = s := by
    cases s
    cases hagenda
    rfl
  rw [step_of_cpu (by rw [nextUnit, hagenda]; rfl), taken, cpuStep_running hp hf, hw]
  simp only [runWord, decode_encode hwf]

/-- A part that reads the same can be left out of a frame. -/
theorem SameBut.drop {rs : List Reg} {ps qs : List Part} {p : Part} {s t : State} (h : SameBut rs ps s t)
    (hp : p.same s t) (hps : ps ⊆ p :: qs) : SameBut rs qs s t := by
  obtain ⟨registers, parts⟩ := h
  refine ⟨registers, fun q hq => ?_⟩
  by_cases hqp : q = p
  · rwa [hqp]
  · exact parts q fun hm => (List.mem_cons.mp (hps hm)).elim hqp hq

/-- Settles O34: the pop reads back the address the push stored, finds the entry within the stack's bounds, and undoes
the move of SP. -/
theorem callThenReturnRestores : Obligations.CallThenReturnRestores := by
  rintro nnn s ⟨hmem, -⟩ hwidth hbounds hfits hagenda hp hf hw hfull h0 h1 hpc
  have hcall : step s = .next (called nnn s) :=
    (step_of_fetch hagenda hp hf hw rfl).trans (exec_call_of_pushCheck (pushCheck_none hfull h0 h1) nnn)
  refine ⟨called nnn s, hcall, fun hw' => ?_⟩
  have hpop : popCheck (called nnn s) = none :=
    popCheck_none (not_stackEmpty_push s.pc hbounds hp hfits hfull) h1.1
  have htarget : returnTarget (called nnn s) = s.pc.toNat + 2 := congrArg (·.toNat + 2) (popValue_push s.pc hmem)
  have hlt : returnTarget (called nnn s) < 4096 := htarget ▸ hpc
  have hret : step (called nnn s) = .next (returned (called nnn s)) :=
    (step_of_fetch (i := .ret 0) (s := called nnn s) hagenda hp hf hw' (by simp [Instr.wf])).trans
      (exec_ret_of_popCheck hpop hlt 0)
  have hSP : (returned (called nnn s)).SP = s.SP := pop_push_SP s.pc hwidth
  have frame := (sameBut_called nnn s).trans (sameBut_returned _)
  exact ⟨returned (called nnn s), hret, (toNat_jump_pc _ hlt).trans htarget, hSP,
    frame.drop (p := .SP) (qs := [.pc, .Mem]) hSP (by decide)⟩

end Sys2Proof.Machine

/-! SUPPORT. The conditional skips (42_skips.md): their words, the skip by its condition, and the key that V[x]
names. -/

namespace Sys2Proof.Machine

/-! ### The word and the skip (R446) -/

/-- The word of an instruction of the form op, x, nn, by the sum of its digits (R301). -/
theorem isWordOf_of_encode_eq_wordXNN {op w : Nat} {x : Nibble} {nn : Byte} {i : Instr} (h : encode i = wordXNN op x nn)
    (hw : op * 4096 + x.val * 256 + nn.toNat = w) : IsWordOf w i :=
  isWordOf_of_encode_eq (h.trans (congrArg (BitVec.ofNat 16) hw))

/-- The word of an instruction of the form op, x, y, n, by the sum of its digits (R301). -/
theorem isWordOf_of_encode_eq_wordXYN {op w : Nat} {x y n : Nibble} {i : Instr} (h : encode i = wordXYN op x y n)
    (hw : op * 4096 + x.val * 256 + y.val * 16 + n.val = w) : IsWordOf w i :=
  isWordOf_of_encode_eq (h.trans (congrArg (BitVec.ofNat 16) hw))

theorem sameBut_skipIf (s : State) (c : Bool) : SameBut [] [.pc] s (s.skipIf c) := sameBut_pc s _

/-- An instruction that skips by the flag `c` moves pc by `n`, once `c` is read as the condition of `n`, and changes
nothing else. -/
theorem exists_next_of_skipIf {i : Instr} {s : State} {c : Bool} {n : Word} (h : exec i s = .next (s.skipIf c))
    (hn : (if c = true then 4 else 2) = n) :
    ∃ t, exec i s = .next t ∧ t.pc = s.pc + n ∧ SameBut [] [.pc] s t :=
  ⟨s.skipIf c, h, congrArg (s.pc + ·) hn, sameBut_skipIf s c⟩

/-! ### The comparisons (R440 to R443) -/

/-- Settles O28: no check guards a comparison, and its flag is the condition of the skip. -/
theorem compareSkips : Obligations.CompareSkips := by
  intro x y nn d s
  refine ⟨⟨isWordOf_of_encode_eq_wordXNN rfl (by omega), ?seImm⟩,
    ⟨isWordOf_of_encode_eq_wordXNN rfl (by omega), ?sneImm⟩,
    ⟨isWordOf_of_encode_eq_wordXYN rfl (by omega), ?seReg⟩,
    ⟨isWordOf_of_encode_eq_wordXYN rfl (by omega), ?sneReg⟩⟩
  case seImm | seReg => exact exists_next_of_skipIf rfl (if_congr beq_iff_eq rfl rfl)
  case sneImm | sneReg => exact exists_next_of_skipIf rfl (if_congr bne_iff_ne rfl rfl)

/-! ### The key tests (R444, R445, R447) -/

section
variable {x : Reg} {s : State}

theorem keyCheck_of_key {k : Fin 16} (h : (s.getV x).toNat = k.val) : keyCheck x s = none := if_neg (by omega)

theorem keyCheck_of_invalid (h : 15 < (s.getV x).toNat) : keyCheck x s = some ⟨.invalidKey, (s.getV x).toNat⟩ :=
  if_pos h

theorem keyNamed_of_key {k : Fin 16} (h : (s.getV x).toNat = k.val) : keyNamed x s = s.getKey k :=
  congrArg s.getKey (Fin.ext ((Nat.mod_eq_of_lt (h ▸ k.isLt)).trans h))

theorem exec_skp_of_key {k : Fin 16} (h : (s.getV x).toNat = k.val) :
    exec (.skp x) s = .next (s.skipIf (s.getKey k)) := by
  rw [exec, execSkp, keyCheck_of_key h, guarded_none, keyNamed_of_key h]

theorem exec_sknp_of_key {k : Fin 16} (h : (s.getV x).toNat = k.val) :
    exec (.sknp x) s = .next (s.skipIf (!s.getKey k)) := by
  rw [exec, execSknp, keyCheck_of_key h, guarded_none, keyNamed_of_key h]

end

theorem isWordOf_skp (x : Reg) : IsWordOf (0xE09E + 256 * x.val) (.skp x) :=
  isWordOf_of_encode_eq_wordXNN rfl <| by
    show 0xE * 4096 + x.val * 256 + 0x9E = _
    omega

theorem isWordOf_sknp (x : Reg) : IsWordOf (0xE0A1 + 256 * x.val) (.sknp x) :=
  isWordOf_of_encode_eq_wordXNN rfl <| by
    show 0xE * 4096 + x.val * 256 + 0xA1 = _
    omega

/-- Settles O29: a number up to 15 passes the check and names its key, and a greater one fails it. -/
theorem keySkips : Obligations.KeySkips := by
  refine fun x s => ⟨isWordOf_skp x, isWordOf_sknp x, fun k hk => ⟨?skp, ?sknp⟩, fun hinvalid => ?invalid⟩
  case skp => exact exists_next_of_skipIf (exec_skp_of_key hk) rfl
  case sknp =>
    refine exists_next_of_skipIf (exec_sknp_of_key hk) ?_
    cases s.getKey k <;> rfl
  case invalid =>
    have fails := keyCheck_of_invalid hinvalid
    exact ⟨guarded_eq_faulted (.skp x) _ _ fails, guarded_eq_faulted (.sknp x) _ _ fails⟩

end Sys2Proof.Machine

/-! SUPPORT. Register loads and arithmetic (43_alu.md): what the write of a result, alone or with a flag, leaves,
and the results and the flags as numbers. -/

namespace Sys2Proof.Machine

/-! ### A result with no flag (R460, R462 to R466) -/

section
variable (x : Reg) (b : Byte) (s : State)

theorem getV_setV_advance : (s.setV x b).advance.getV x = b := State.getV_setV_same ..

theorem sameBut_setV_advance : SameBut [x] [.pc] s (s.setV x b).advance :=
  (sameBut_setV s x b).trans (sameBut_pc _ _)

end

/-- Settles O20: the result is nn itself. -/
theorem loadImmediate : Obligations.LoadImmediate := fun x nn s =>
  ⟨isWordOf_of_encode_eq_wordXNN rfl (by omega), (s.setV x nn).advance, rfl, getV_setV_advance x nn s, rfl,
    sameBut_setV_advance x nn s⟩

/-- Settles O21: the sum of two bytes is their sum mod 256. -/
theorem addImmediate : Obligations.AddImmediate := by
  intro x nn s
  refine ⟨isWordOf_of_encode_eq_wordXNN rfl (by omega), (s.setV x (s.getV x + nn)).advance, rfl, ?_, rfl,
    sameBut_setV_advance x _ s⟩
  rw [getV_setV_advance, BitVec.toNat_add]

/-- Settles O22: the result is V[y] as it was. -/
theorem copyRegister : Obligations.CopyRegister := fun x y s =>
  ⟨isWordOf_of_encode_eq_wordXYN rfl (by omega), (s.setV x (s.getV y)).advance, rfl, getV_setV_advance x _ s, rfl,
    sameBut_setV_advance x _ s⟩

/-- An instruction whose result has the bits `bit` leaves a register with those bits, and changes nothing else. -/
theorem exists_next_of_bits {i : Instr} {x : Reg} {b : Byte} {s : State} {bit : Nat → Bool}
    (h : exec i s = .next (s.setV x b).advance) (hbit : ∀ k, b.getLsbD k = bit k) :
    ∃ t, exec i s = .next t ∧ (∀ k, k < 8 → (t.getV x).getLsbD k = bit k) ∧ t.pc = s.pc + 2 ∧ SameBut [x] [.pc] s t :=
  ⟨(s.setV x b).advance, h, fun k _ => by rw [getV_setV_advance, hbit], rfl, sameBut_setV_advance x b s⟩

/-- Settles O23: bit k of a bitwise operation is the operation on the two bits k. -/
theorem bitwiseOperations : Obligations.BitwiseOperations := fun _ _ _ =>
  ⟨⟨isWordOf_of_encode_eq_wordXYN rfl (by omega), exists_next_of_bits rfl fun _ => BitVec.getLsbD_or⟩,
    ⟨isWordOf_of_encode_eq_wordXYN rfl (by omega), exists_next_of_bits rfl fun _ => BitVec.getLsbD_and⟩,
    ⟨isWordOf_of_encode_eq_wordXYN rfl (by omega), exists_next_of_bits rfl fun _ => BitVec.getLsbD_xor⟩⟩

/-! ### A result with a flag (R461) -/

/-- The write of a result and a flag is the one R461 describes, in either order. -/
theorem resultAndFlag_writeWithFlag (x : Reg) (r g : Byte) (s : State) :
    ResultAndFlag x r.toNat g.toNat s (writeWithFlag x r g s) := by
  simp only [ResultAndFlag, getV_writeWithFlag]
  by_cases hx : x = VF
  · subst hx
    cases s.cfg.vfOrder <;> simp
  · cases s.cfg.vfOrder <;> simp [hx, Ne.symm hx]

/-- An instruction that writes the result `result` and the flag `flag` does so as R461 describes, and changes nothing
else. -/
theorem exists_next_of_writeWithFlag {i : Instr} {x : Reg} {r g : Byte} {s : State} {result flag : Nat}
    (h : exec i s = .next (writeWithFlag x r g s).advance) (hr : r.toNat = result) (hg : g.toNat = flag) :
    ∃ t, exec i s = .next t ∧ ResultAndFlag x result flag s t ∧ t.pc = s.pc + 2 ∧ SameBut [x, VF] [.pc] s t := by
  subst hr hg
  exact ⟨(writeWithFlag x r g s).advance, h, resultAndFlag_writeWithFlag x r g s,
    congrArg (· + 2) (writeWithFlag_pc s x r g), (sameBut_writeWithFlag s x r g).trans (sameBut_pc _ _)⟩

/-! ### The results and the flags as numbers (R115) -/

section
variable (a b : Byte)

theorem toNat_carryFlag : (carryFlag a b).toNat = if a.toNat + b.toNat > 255 then 1 else 0 :=
  apply_ite BitVec.toNat ..

theorem toNat_notBorrowFlag : (notBorrowFlag a b).toNat = if b.toNat > a.toNat then 0 else 1 :=
  apply_ite BitVec.toNat ..

theorem toNat_lowBitFlag : (lowBitFlag a).toNat = a.toNat % 2 :=
  (BitVec.toNat_and ..).trans (Nat.and_one_is_mod _)

theorem toNat_highBitFlag : (highBitFlag a).toNat = a.toNat / 128 :=
  (BitVec.toNat_ushiftRight ..).trans (Nat.shiftRight_eq_div_pow ..)

theorem toNat_byte_sub : (a - b).toNat = (a.toNat + 256 - b.toNat) % 256 := by
  rw [BitVec.toNat_sub]
  omega

theorem toNat_byte_shiftRight_one : (a >>> 1).toNat = a.toNat / 2 :=
  (BitVec.toNat_ushiftRight ..).trans (Nat.shiftRight_eq_div_pow ..)

theorem toNat_byte_shiftLeft_one : (a <<< 1).toNat = a.toNat * 2 % 256 := by
  rw [BitVec.toNat_shiftLeft, Nat.shiftLeft_eq]

end

/-! ### Sums, differences and shifts (R467 to R471) -/

/-- Settles O24: the result is the sum of the two bytes, the flag its carry. -/
theorem addWithCarry : Obligations.AddWithCarry := fun _ _ _ =>
  ⟨isWordOf_of_encode_eq_wordXYN rfl (by omega),
    exists_next_of_writeWithFlag rfl (BitVec.toNat_add ..) (toNat_carryFlag ..)⟩

/-- Settles O25: the two instructions differ in the order of their operands only. -/
theorem subtractWithNotBorrow : Obligations.SubtractWithNotBorrow := fun _ _ _ =>
  ⟨⟨isWordOf_of_encode_eq_wordXYN rfl (by omega),
      exists_next_of_writeWithFlag rfl (toNat_byte_sub ..) (toNat_notBorrowFlag ..)⟩,
    ⟨isWordOf_of_encode_eq_wordXYN rfl (by omega),
      exists_next_of_writeWithFlag rfl (toNat_byte_sub ..) (toNat_notBorrowFlag ..)⟩⟩

/-- Settles O26: the bit shifted out is the lowest bit to the right and the highest to the left. -/
theorem shiftByOne : Obligations.ShiftByOne := fun _ _ _ =>
  ⟨⟨isWordOf_of_encode_eq_wordXYN rfl (by omega),
      exists_next_of_writeWithFlag rfl (toNat_byte_shiftRight_one _) (toNat_lowBitFlag _)⟩,
    ⟨isWordOf_of_encode_eq_wordXYN rfl (by omega),
      exists_next_of_writeWithFlag rfl (toNat_byte_shiftLeft_one _) (toNat_highBitFlag _)⟩⟩

/-! ### The random byte (R472) -/

theorem getV_rndWithDraw (draw : Byte) (x : Reg) (nn : Byte) (s : State) :
    (rndWithDraw draw x nn s).getV x = draw &&& nn := getV_setV_advance ..

/-- Settles O27: the result is the draw under the mask nn, whichever the draw is. -/
theorem randomByteMasked : Obligations.RandomByteMasked := by
  intro x nn s
  refine ⟨isWordOf_of_encode_eq_wordXNN rfl (by omega), ⟨_, rfl, getV_rndWithDraw _ x nn s, rfl, rfl, ?_⟩,
    fun draw k _ => ?_⟩
  · exact (sameBut_setV_advance x _ s).trans (sameBut_draws _ _)
  · rw [getV_rndWithDraw, BitVec.getLsbD_and]

end Sys2Proof.Machine

/-! SUPPORT. The index register and memory (44_index_memory.md): the writes of I, the stores of a run of bytes at I
with the fault of their lowest address that cannot be written, and the load of a run of registers. -/

namespace Sys2Proof.Machine

/-- The word of an instruction of family F, `w` being the one whose x digit is 0 (R323). -/
theorem isWordOf_of_encode_eq_familyF {x : Nibble} {nn : Byte} {w : Nat} {i : Instr} (h : encode i = wordXNN 0xF x nn)
    (hw : 0xF000 + nn.toNat = w) : IsWordOf (w + 256 * x.val) i :=
  isWordOf_of_encode_eq_wordXNN h (by omega)

/-- A number that fits in `w` bits is kept as it is. -/
theorem toNat_ofNat_of_lt {w n : Nat} (h : n < 2 ^ w) : (BitVec.ofNat w n).toNat = n :=
  (BitVec.toNat_ofNat ..).trans (Nat.mod_eq_of_lt h)

/-! ### Writes of I (R490, R492, R494) -/

/-- An instruction that writes `a` to I changes I and pc alone. -/
theorem exists_next_of_index {i : Instr} {s : State} {a : Word} {P : State → Prop}
    (h : exec i s = .next ({ s with I := a } : State).advance) (hP : P ({ s with I := a } : State).advance) :
    ∃ t, exec i s = .next t ∧ P t ∧ t.pc = s.pc + 2 ∧ SameBut [] [.I, .pc] s t :=
  ⟨_, h, hP, rfl, (sameBut_I s a).trans (sameBut_pc _ _)⟩

/-- Every address nnn fits in I (R302). -/
theorem toNat_zext16 (nnn : BitVec 12) : (zext16 nnn).toNat = nnn.toNat := toNat_ofNat_of_lt (by omega)

/-- The mask of FX29_MASK keeps the digit's low 4 bits (R494). -/
theorem glyphAddr_eq (mask : Bool) (d : Byte) :
    glyphAddr mask d = 5 * (if mask = true then d.toNat % 16 else d.toNat) := by
  have low : (d &&& 0xF).toNat = d.toNat % 16 := (BitVec.toNat_and ..).trans (Nat.and_two_pow_sub_one_eq_mod _ 4)
  rw [glyphAddr, low]

/-- Every glyph address fits in I. -/
theorem toNat_ofNat_glyphAddr (mask : Bool) (d : Byte) :
    (BitVec.ofNat 16 (glyphAddr mask d)).toNat = glyphAddr mask d :=
  toNat_ofNat_of_lt ((glyphAddr_lt mask d).trans (by decide))

/-- Settles O35: no check guards a write of I, and each value but the sum fits in I as it is. -/
theorem indexRegisterWrites : Obligations.IndexRegisterWrites := by
  refine fun nnn x s => ⟨⟨isWordOf_of_encode_eq rfl, ?ldI⟩, ⟨isWordOf_of_encode_eq_familyF rfl rfl, ?addI⟩,
    ⟨isWordOf_of_encode_eq_familyF rfl rfl, ?ldF⟩⟩
  case ldI => exact exists_next_of_index rfl (toNat_zext16 nnn)
  case addI =>
    refine exists_next_of_index rfl fun hwidth => (wrapAddr_toNat ..).trans ?_
    rw [hwidth]
    rfl
  case ldF => exact exists_next_of_index rfl ((toNat_ofNat_glyphAddr ..).trans (glyphAddr_eq ..))

/-! ### The checks of a run of addresses at I (R203, R206, R605) -/

section
variable {i : Instr} {s done : State} {n : Nat}

theorem guarded_of_writable (h : ∀ k, k < n → Writable s (indexAddr s k)) :
    guarded (firstFailing (checkWrite s.cfg.glyphWritePolicy) (indexAddr s 0) n) (encode i) s done = .next done := by
  have passes : firstFailing (checkWrite s.cfg.glyphWritePolicy) (indexAddr s 0) n = none :=
    firstFailing_checkWrite_none h
  rw [passes, guarded_none]

theorem guarded_of_not_writable {k : Nat} (hk : k < n) (h : ∀ j, j < k → Writable s (indexAddr s j))
    (hn : ¬Writable s (indexAddr s k)) :
    guarded (firstFailing (checkWrite s.cfg.glyphWritePolicy) (indexAddr s 0) n) (encode i) s done =
      .next (faulted (writeFaultKind (indexAddr s k)) (indexAddr s k) i s) :=
  guarded_eq_faulted i s done (firstFailing_checkWrite_some hk h hn)

theorem guarded_of_readable (h : ∀ k, k < n → Readable (indexAddr s k)) :
    guarded (firstFailing resolve (indexAddr s 0) n) (encode i) s done = .next done := by
  have passes : firstFailing resolve (indexAddr s 0) n = none := firstFailing_resolve_none h
  rw [passes, guarded_none]

theorem guarded_of_not_readable {k : Nat} (hk : k < n) (h : ∀ j, j < k → Readable (indexAddr s j))
    (hn : ¬Readable (indexAddr s k)) :
    guarded (firstFailing resolve (indexAddr s 0) n) (encode i) s done =
      .next (faulted .outOfBounds (indexAddr s k) i s) :=
  guarded_eq_faulted i s done (firstFailing_resolve_some hk h hn)

end

/-! ### The stores at I (R496, R498) -/

/-- The state a store of the bytes `bs` at I leaves when it completes. -/
def storedAtIndex (bs : List Byte) (s : State) : State := (s.writeBytes (indexAddr s 0) bs).advance

section
variable {bs : List Byte} {s : State}

/-- The bytes stored are read back at I, I + 1, ... -/
theorem read_storedAtIndex (hm : Memory.wf s.cfg.glyphTable s.Mem = true) {k : Nat} (hk : k < bs.length) :
    (storedAtIndex bs s).read (indexAddr s k) = bs[k] := s.read_writeBytes_inside hm hk

theorem memSameOutside_storedAtIndex : MemSameOutside (indexAddr s 0) bs.length s (storedAtIndex bs s) :=
  fun _ outside => s.read_writeBytes_outside outside

theorem sameBut_storedAtIndex : SameBut [] [.pc, .Mem] s (storedAtIndex bs s) :=
  ((sameBut_writeBytes s _ bs).trans (sameBut_pc _ _)).mono (List.Subset.refl _) (List.Perm.swap ..).subset

end

theorem exec_ldB_of_writable {x : Reg} {s : State} (h : ∀ k, k < 3 → Writable s (indexAddr s k)) :
    exec (.ldB x) s = .next (storedAtIndex (decimalDigits (s.getV x)) s) := guarded_of_writable h

/-- Settles O36: the three checks decide between the store of the digits and the first failing check's fault. -/
theorem decimalDigitsStored : Obligations.DecimalDigitsStored := by
  refine fun x s hm => ⟨isWordOf_of_encode_eq_familyF rfl rfl, fun hwrite => ?_, fun k hk => guarded_of_not_writable hk⟩
  have digit {k : Nat} (hk : k < 3) := congrArg BitVec.toNat (read_storedAtIndex (bs := decimalDigits (s.getV x)) hm hk)
  exact ⟨storedAtIndex (decimalDigits (s.getV x)) s, exec_ldB_of_writable hwrite,
    (digit (k := 0) (by decide)).trans (toNat_ofNat_of_lt (by omega)),
    (digit (k := 1) (by decide)).trans (toNat_ofNat_of_lt (by omega)),
    (digit (k := 2) (by decide)).trans (toNat_ofNat_of_lt (by omega)),
    rfl, memSameOutside_storedAtIndex (bs := decimalDigits (s.getV x)), sameBut_storedAtIndex⟩

section
variable {x : Reg} {s : State}

theorem length_lowRegisters : (lowRegisters x s).length = x.val + 1 := by
  simp [lowRegisters]

theorem getElem_lowRegisters {r : Reg} (h : r.val < (lowRegisters x s).length) :
    (lowRegisters x s)[r.val] = s.getV r := by
  simp [lowRegisters, State.getV]

theorem exec_store_of_writable (h : ∀ k, k ≤ x.val → Writable s (indexAddr s k)) :
    exec (.store x) s = .next (storedAtIndex (lowRegisters x s) s) :=
  guarded_of_writable fun k hk => h k (Nat.le_of_lt_succ hk)

/-- The registers stored are read back at I, I + 1, ... -/
theorem read_stored_lowRegisters (hm : Memory.wf s.cfg.glyphTable s.Mem = true) {r : Reg} (hr : r.val ≤ x.val) :
    (storedAtIndex (lowRegisters x s) s).read (indexAddr s r.val) = s.getV r := by
  have hlt : r.val < (lowRegisters x s).length := length_lowRegisters ▸ Nat.lt_succ_of_le hr
  rw [read_storedAtIndex hm hlt, getElem_lowRegisters]

end

/-- Settles O37: the x + 1 checks decide between the store of the registers and the first failing check's fault. -/
theorem registersStored : Obligations.RegistersStored := by
  refine fun x s hm => ⟨isWordOf_of_encode_eq_familyF rfl rfl, fun hwrite => ?_, fun k hk =>
    guarded_of_not_writable (Nat.lt_succ_of_le hk)⟩
  have outside := memSameOutside_storedAtIndex (bs := lowRegisters x s) (s := s)
  rw [length_lowRegisters] at outside
  exact ⟨storedAtIndex (lowRegisters x s) s, exec_store_of_writable hwrite, fun r hr => read_stored_lowRegisters hm hr,
    rfl, outside, sameBut_storedAtIndex⟩

/-! ### The load at I (R500) -/

theorem exec_load_of_readable {x : Reg} {s : State} (h : ∀ k, k ≤ x.val → Readable (indexAddr s k)) :
    exec (.load x) s = .next (loadRegisters x s).advance :=
  guarded_of_readable fun k hk => h k (Nat.le_of_lt_succ hk)

/-- The advance of pc leaves the registers that were loaded. -/
theorem getV_loadRegisters_advance (x r : Reg) (s : State) :
    (loadRegisters x s).advance.getV r = if r.val ≤ x.val then s.read (indexAddr s r.val) else s.getV r :=
  getV_loadRegisters s x r

theorem sameBut_loadRegisters_advance (x : Reg) (s : State) :
    SameBut (List.finRange 16) [.pc] s (loadRegisters x s).advance :=
  ((sameBut_loadRegisters s x).trans (sameBut_pc _ _)).mono (fun r _ => List.mem_finRange r) (List.Subset.refl _)

/-- Settles O38: the x + 1 checks decide between the load of the registers and the first failing check's fault. -/
theorem registersLoaded : Obligations.RegistersLoaded := fun x s =>
  ⟨isWordOf_of_encode_eq_familyF rfl rfl,
    fun hread => ⟨(loadRegisters x s).advance, exec_load_of_readable hread, fun r => getV_loadRegisters_advance x r s, rfl,
      sameBut_loadRegisters_advance x s⟩,
    fun _ hk => guarded_of_not_readable (Nat.lt_succ_of_le hk)⟩

/-- Settles O39: the store leaves I, so the load reads the bytes the store wrote, all of them in the address space. -/
theorem storeThenLoadRestores : Obligations.StoreThenLoadRestores := by
  intro x s other hm hwrite
  have hread : ∀ k, k ≤ x.val → Readable (indexAddr s k) := fun k hk => (hwrite k hk).1
  refine ⟨storedAtIndex (lowRegisters x s) s, _, exec_store_of_writable hwrite, exec_load_of_readable hread,
    fun r hr => ?_⟩
  exact (getV_loadRegisters_advance x r _).trans ((if_pos hr).trans (read_stored_lowRegisters hm hr))

end Sys2Proof.Machine

/-! SUPPORT. Timer access and the key wait (45_timers_keywait.md): the lowest pressed key, the two outcomes of Fx0A, and
why a waiting machine has its Fx0A at pc. -/

namespace Sys2Proof.Machine

/-! ### The lowest pressed key (R522) -/

theorem lowestKey_of_lowest {s : State} {k : Fin 16} (hk : s.getKey k = true) (hlow : ∀ j, j < k → s.getKey j = false) :
    lowestKey s = some k := by
  refine List.find?_eq_some_iff_getElem.mpr ⟨hk, k.val, by simp, by simp, fun j hj => ?_⟩
  simpa using hlow ⟨j, hj.trans k.isLt⟩ hj

theorem lowestKey_of_no_key {s : State} (h : ∀ k, s.getKey k = false) : lowestKey s = none :=
  List.find?_eq_none.mpr fun k _ => by simp [h k]

/-! ### The two outcomes of Fx0A (R522) -/

/-- The state Fx0A leaves when it captures the key `k`. -/
def keyCaptured (x : Reg) (k : Fin 16) (s : State) : State :=
  (({ s with halted := false } : State).setV x (BitVec.ofNat 8 k.val)).advance

section
variable {x : Reg} {s : State}

theorem exec_ldVxKey_of_key {k : Fin 16} (h : lowestKey s = some k) :
    exec (.ldVxKey x) s = .next (keyCaptured x k s) := by
  simp only [exec, execLdVxKey, h, keyCaptured]

theorem exec_ldVxKey_of_no_key (h : lowestKey s = none) : exec (.ldVxKey x) s = .next { s with halted := true } := by
  simp only [exec, execLdVxKey, h]

/-- Fx0A leaves the machine waiting only by leaving everything else as it was. -/
theorem eq_halted_of_exec_ldVxKey {t : State} (h : exec (.ldVxKey x) s = .next t) (ht : t.halted = true) :
    t = { s with halted := true } := by
  cases hk : lowestKey s with
  | none =>
    rw [exec_ldVxKey_of_no_key hk] at h
    cases h
    rfl
  | some k =>
    rw [exec_ldVxKey_of_key hk] at h
    cases h
    cases ht

end

/-- The number of a key fits in a register as it is. -/
theorem toNat_getV_keyCaptured (x : Reg) (k : Fin 16) (s : State) : ((keyCaptured x k s).getV x).toNat = k.val :=
  (congrArg BitVec.toNat (getV_setV_advance ..)).trans (toNat_ofNat_of_lt (by omega))

theorem sameBut_keyCaptured (x : Reg) (k : Fin 16) (s : State) : SameBut [x] [.halted, .pc] s (keyCaptured x k s) :=
  (sameBut_halted s false).trans (sameBut_setV_advance x _ _)

/-- Settles O41: the lowest pressed key decides between the capture and the wait. -/
theorem keyWaitCapturesLowestKey : Obligations.KeyWaitCapturesLowestKey := fun x s =>
  ⟨isWordOf_of_encode_eq_familyF rfl rfl,
    fun k hk hlow => ⟨keyCaptured x k s, exec_ldVxKey_of_key (lowestKey_of_lowest hk hlow), toNat_getV_keyCaptured x k s,
      rfl, rfl, sameBut_keyCaptured x k s⟩,
    fun hnone => ⟨{ s with halted := true }, exec_ldVxKey_of_no_key (lowestKey_of_no_key hnone), rfl,
      sameBut_halted s true⟩⟩

/-! ### The wait and its Fx0A (R523) -/

/-- An instruction that leaves the machine waiting is an Fx0A: no other sets halted, and a machine that waits already
has no other instruction to run. -/
theorem eq_ldVxKey_of_halted {i : Instr} {s t : State} (hs : WaitsAtKeyWait s) (hw : fetch s = .ok (encode i))
    (h : exec i s = .next t) (ht : t.halted = true) : ∃ x, i = .ldVxKey x := by
  by_cases hsame : t.halted = s.halted
  · obtain ⟨x, hx⟩ := hs (hsame.symm.trans ht)
    exact ⟨x, encode_injective (Except.ok.inj (hw.symm.trans hx))⟩
  · obtain ⟨-, -, -, -, -, haltedOnly, -⟩ := instructionsWriteOnlyTheirState i s t h
    exact haltedOnly hsame

/-- An instruction run from its own word keeps the Fx0A at pc: only an Fx0A leaves the machine waiting, and it moves
neither pc nor memory when it does. -/
theorem exec_keeps_waitsAtKeyWait {i : Instr} {s t : State} (hs : WaitsAtKeyWait s) (hw : fetch s = .ok (encode i))
    (h : exec i s = .next t) : WaitsAtKeyWait t := by
  intro ht
  obtain ⟨x, rfl⟩ := eq_ldVxKey_of_halted hs hw h ht
  rw [eq_halted_of_exec_ldVxKey h ht]
  exact ⟨x, hw⟩

/-- A load ends the wait (R702). -/
theorem loadImage_waitsAtKeyWait {s : State} {bytes : List Byte} (hl : bytes.length ≤ 3584) :
    WaitsAtKeyWait (loadImage bytes s) := by
  rw [loadImage_of_le hl]
  exact fun hhalted => by cases hhalted

/-- Settles O14: only an executed instruction and a load touch pc, memory or halted, and the word an instruction was
decoded from is its own. -/
theorem stepKeepsKeyWaitAtPc : Obligations.StepKeepsKeyWaitAtPc :=
  step_preserves
    (take := fun _ hs => hs)
    (fault := fun _ _ _ hs => hs)
    (instr := fun i w s _ hs _ _ hw hd hx =>
      have own : encode i = w := (encodeOfDecodeIsWord s.cfg.decodeStrict w i hd).1
      exec_keeps_waitsAtKeyWait hs (own ▸ hw) hx)
    (timers := fun _ _ _ hs => hs)
    (key := fun _ _ _ hs _ _ => hs)
    (changed := fun _ _ hs => hs)
    (ended := fun _ hs => hs)
    (load := fun _ _ _ hl => loadImage_waitsAtKeyWait hl)

/-! ### Timer access (R520, R525, R526) -/

/-- Settles O40: each of the three copies one byte, between a register and a timer. -/
theorem timerAccess : Obligations.TimerAccess := fun x s =>
  ⟨⟨isWordOf_of_encode_eq_familyF rfl rfl, (s.setV x s.DT).advance, rfl, getV_setV_advance x s.DT s, rfl,
      sameBut_setV_advance x s.DT s⟩,
    ⟨isWordOf_of_encode_eq_familyF rfl rfl, ({ s with DT := s.getV x } : State).advance, rfl, rfl, rfl,
      (sameBut_DT s _).trans (sameBut_pc _ _)⟩,
    ⟨isWordOf_of_encode_eq_familyF rfl rfl, ({ s with ST := s.getV x } : State).advance, rfl, rfl, rfl,
      (sameBut_ST s _).trans (sameBut_pc _ _)⟩⟩

end Sys2Proof.Machine

/-! SUPPORT. The CPU agent's step (60_exceptions.md R600 to R632): the fetched word, the three faults before execution,
and the host's `step()`. -/

namespace Sys2Proof.Machine

/-! ### The step by what was fetched (R210, R630) -/

theorem fetch_of_lt {s : State} (hpc : s.pc.toNat + 1 < 4096) : fetch s = .ok (s.readWord s.pc.toNat) :=
  fetch_eq_ok_iff.mpr ⟨hpc, rfl⟩

theorem runWord_of_decode {s : State} {w : Word} {i : Instr} (h : decode s.cfg.decodeStrict w = .ok i) :
    runWord w s = exec i s := by
  simp only [runWord, h]

theorem runWord_of_decode_error {s : State} {w : Word} {e : DecodeError} (h : decode s.cfg.decodeStrict w = .error e) :
    runWord w s = .next (raise ⟨.unknownInstruction, w.toNat⟩ (some w) s) := by
  simp only [runWord, h]

section
variable {s : State} (hp : s.phase = .running) (hf : s.fault = none)
include hp hf

theorem cpuStep_of_fetch {w : Word} (h : fetch s = .ok w) : cpuStep s = runWord w s := by
  rw [cpuStep_running hp hf, h]

theorem cpuStep_of_fetch_error {c : Cause} (h : fetch s = .error c) : cpuStep s = .next (raise c none s) := by
  rw [cpuStep_running hp hf, h]

end

/-- Settles O7: the fetch of a pc below 0xFFF reads the word that decodes to the instruction. -/
theorem stepRunsDecodedInstruction : Obligations.StepRunsDecodedInstruction := fun s i hcpu hp hf hpc hd =>
  calc step s
    _ = cpuStep s.takeUnit := step_of_cpu hcpu
    _ = runWord (s.readWord s.pc.toNat) s.takeUnit := cpuStep_of_fetch (s := s.takeUnit) hp hf (fetch_of_lt hpc)
    _ = exec i s.takeUnit := runWord_of_decode hd

/-! ### The faults of the fetch and the decoder (R605) -/

theorem eq_readWord_of_toNat {s : State} {a : Nat} {w : Word}
    (hw : w.toNat = (s.read a).toNat * 256 + (s.read (a + 1)).toNat) : w = s.readWord a := by
  rw [State.readWord, joinBytes, ← hw, BitVec.ofNat_toNat, BitVec.setWidth_eq]

/-- Settles O8: the fetch fails at the first of its two addresses that is above 0xFFF, and a fetched word goes to the
decoder. -/
theorem fetchAndDecodeFaults : Obligations.FetchAndDecodeFaults := by
  intro s hcpu hp hf
  rw [step_of_cpu hcpu]
  refine ⟨fun hpc => ?_, fun hpc => ?_, fun w hpc hw hd => ?_⟩
  · exact cpuStep_of_fetch_error (s := s.takeUnit) hp hf (fetch_eq_error_iff.mpr (.inl ⟨hpc, rfl⟩))
  · exact cpuStep_of_fetch_error (s := s.takeUnit) hp hf (fetch_eq_error_iff.mpr (.inr ⟨hpc, rfl⟩))
  · have fetched : fetch s.takeUnit = .ok w := fetch_eq_ok_iff.mpr ⟨hpc, eq_readWord_of_toNat (s := s.takeUnit) hw⟩
    exact (cpuStep_of_fetch (s := s.takeUnit) hp hf fetched).trans (runWord_of_decode_error hd)

/-! ### The record of a fault (R603, R604) -/

/-- The word a fault record holds is there exactly when the fetch succeeded. -/
theorem fetch_toOption (s : State) :
    (fetch s).toOption = if s.pc.toNat + 1 < 4096 then some (s.readWord s.pc.toNat) else none := by
  split
  case isTrue hpc => rw [fetch_of_lt hpc]; rfl
  case isFalse hpc =>
    cases hw : fetch s with
    | error c => rfl
    | ok w => exact absurd (fetch_eq_ok_iff.mp hw).1 hpc

/-- A CPU step that leaves a fault recorded raised it: a failed fetch, an unknown word, or a check of the instruction,
whose own word is the one fetched. -/
theorem cpuStep_raises {s t : State} (h : cpuStep s = .next t) (ht : t.fault ≠ none) :
    ∃ c, t = raise c (fetch s).toOption s := by
  obtain ⟨-, hf, ⟨c, hw, rfl⟩ | ⟨w, hw, -, rfl⟩ | ⟨w, i, hw, hd, hx⟩⟩ := cpuStep_inversion h
  · exact ⟨c, by rw [hw]; rfl⟩
  · exact ⟨_, by rw [hw]; rfl⟩
  · rcases exec_inversion hx with ⟨c, rfl⟩ | ⟨hfault, -⟩
    · have own : encode i = w := (encodeOfDecodeIsWord _ w i hd).1
      exact ⟨c, by rw [hw, own]; rfl⟩
    · exact absurd (hfault.trans hf) ht

/-! ### The host's `step()` (R632) -/

theorem stepCall_of_next {s t : State} (h : cpuStep s = .next t) :
    stepCall s = (t, if t.fault = none then .done else .record t.fault) := by
  simp only [stepCall, h]

theorem stepCall_faulted {s : State} {r : FaultRecord} (hf : s.fault = some r) :
    stepCall s = (s, .record (some r)) := by
  simp only [stepCall, cpuStep_faulted hf]

@[simp] theorem State.someKey_eq_true_iff {s : State} : s.someKey = true ↔ ∃ k, s.getKey k = true := by
  simp [State.someKey]

theorem lowestKey_of_not_someKey {s : State} (h : s.someKey = false) : lowestKey s = none :=
  lowestKey_of_no_key fun k => Bool.eq_false_iff.mpr fun hk =>
    Bool.eq_false_iff.mp h (State.someKey_eq_true_iff.mpr ⟨k, hk⟩)

/-- A waiting machine with no key pressed runs the Fx0A at pc again, which sets halted as it is (R523). -/
theorem cpuStep_of_waiting {s : State} (hp : s.phase = .running) (hf : s.fault = none) (hhalted : s.halted = true)
    (hkeys : s.someKey = false) (hs : WaitsAtKeyWait s) : cpuStep s = .next s := by
  obtain ⟨x, hw⟩ := hs hhalted
  have unchanged : ({ s with halted := true } : State) = s := by rw [← hhalted]
  rw [cpuStep_of_fetch hp hf hw, runWord_of_decode (decode_encode rfl),
    exec_ldVxKey_of_no_key (lowestKey_of_not_someKey hkeys), unchanged]

/-- Settles O10: `step()` answers what the CPU step answers, which on a waiting machine is the state itself and on a
faulted one its record. -/
theorem stepOperationReturnsOkOrRecord : Obligations.StepOperationReturnsOkOrRecord := by
  refine ⟨fun s t h => ?_, fun s hp hf hhalted hkeys hs => ?_, fun s r hf => stepCall_faulted hf⟩
  · rw [stepCall_of_next h]
    cases t.fault with
    | none => rfl
    | some r => rfl
  · rw [stepCall_of_next (cpuStep_of_waiting hp hf hhalted hkeys hs), if_pos hf]

end Sys2Proof.Machine

/-! SUPPORT. The timer agent and the host agent (60_exceptions.md R604, R620, R631 to R645): when a unit is enabled,
what each operation answers, and what it leaves unchanged. -/

namespace Sys2Proof.Machine

/-! ### When the agents move (R604, R631) -/

@[simp] theorem agentsMove_eq_true_iff {s : State} : agentsMove s = true ↔ s.phase = .running ∧ s.fault = none := by
  simp [agentsMove]

theorem agentsMove_of_faulted {s : State} {r : FaultRecord} (hf : s.fault = some r) : agentsMove s = false := by
  simp [agentsMove, hf]

theorem cpuEnabled_eq_true_iff {s : State} : cpuEnabled s = true ↔
    (s.phase = .running ∧ s.fault = none) ∧ (s.halted = false ∨ ∃ k, s.getKey k = true) := by
  simp [cpuEnabled]

/-! ### The tick (R620) -/

theorem toNat_countDown (b : Byte) : (countDown b).toNat = b.toNat - 1 := by
  unfold countDown
  split
  · bv_omega
  · omega

theorem tick_of_agentsMove {s : State} (h : agentsMove s = true) :
    tick s = { s with DT := countDown s.DT, ST := countDown s.ST } := if_pos h

theorem SameBut.refl (s : State) : SameBut [] [] s s := ⟨fun _ _ => rfl, fun p _ => p.same_refl s⟩

theorem sameBut_tick (s : State) : SameBut [] [.DT, .ST] s (tick s) := by
  unfold tick
  split
  · exact (sameBut_DT s (countDown s.DT)).trans (sameBut_ST _ (countDown s.ST))
  · exact (SameBut.refl s).mono (List.nil_subset _) (List.nil_subset _)

theorem runUnit_timer {s : State} (h : s.phase ≠ .ended) : runUnit .timer s = .next (tick s) := if_neg h

/-- Settles O42: halted is not among what the tick asks for. -/
theorem tickDecrementsBothTimers : Obligations.TickDecrementsBothTimers := by
  intro s hp hf
  have enabled : agentsMove s = true := agentsMove_eq_true_iff.mpr ⟨hp, hf⟩
  refine ⟨enabled, tick s, runUnit_timer (by simp [hp]), ?_, ?_, sameBut_tick s⟩ <;> rw [tick_of_agentsMove enabled]
  · exact toNat_countDown s.DT
  · exact toNat_countDown s.ST

/-! ### The keys (R643, R644) -/

theorem sameBut_setKey (s : State) (k : Fin 16) (b : Bool) : SameBut [] [.Key] s (s.setKey k b) := .of_part rfl

theorem getKey_setKey_same (s : State) (k : Fin 16) (b : Bool) : (s.setKey k b).getKey k = b := by
  rw [State.getKey_setKey, if_pos rfl]

theorem getKey_setKey_ne (s : State) {k j : Fin 16} (b : Bool) (h : j.val ≠ k.val) :
    (s.setKey k b).getKey j = s.getKey j := by
  rw [State.getKey_setKey, if_neg fun e => h (congrArg Fin.val e.symm)]

theorem setKeyOp_of_agentsMove {k : Nat} {s : State} (hk : k < 16) (hm : agentsMove s = true) (b : Bool) :
    setKeyOp k b s = (s.setKey ⟨k, hk⟩ b, .done) := by
  rw [setKeyOp, dif_pos hk, if_pos hm]

theorem setKeyOp_refused {k : Nat} {s : State} (h : 16 ≤ k ∨ s.fault ≠ none) (b : Bool) :
    setKeyOp k b s = (s, .refused) := by
  unfold setKeyOp
  split
  case isTrue hk =>
    have hf : s.fault ≠ none := h.resolve_left (Nat.not_le_of_lt hk)
    exact if_neg fun hm => hf (agentsMove_eq_true_iff.mp hm).2
  case isFalse => rfl

/-! ### The host's operations before the shutdown (R604, R634, R640 to R645) -/

section
variable {s : State} (h : s.phase ≠ .ended)
include h

theorem hostCall_press (k : Nat) : hostCall (.press k) s = setKeyOp k true s := if_neg h

theorem hostCall_release (k : Nat) : hostCall (.release k) s = setKeyOp k false s := if_neg h

theorem hostCall_isHalted : hostCall .isHalted s = (s, .flag s.halted) := if_neg h

theorem hostCall_displayChanged : hostCall .displayChanged s = ({ s with changed := false }, .flag s.changed) :=
  if_neg h

theorem hostCall_framebuffer (layout : FbExportLayout) :
    hostCall (.framebuffer layout) s = (s, .bytes (framebuffer layout s)) := if_neg h

theorem hostCall_tickTimers :
    hostCall .tickTimers s = if agentsMove s then (tick s, .done) else (s, .refused) := if_neg h

theorem hostCall_readFault : hostCall .readFault s = (s, .record s.fault) := if_neg h

theorem hostCall_load_state (bytes : List Byte) : (hostCall (.load bytes) s).1 = loadImage bytes s :=
  congrArg Prod.fst (if_neg h)

theorem runUnit_host (op : HostOp) : runUnit (.host op) s = .next (hostCall op s).1 := if_neg h

end

/-- Settles O50: a press leaves a pressed key, which lifts the hold. -/
theorem pressAndReleaseSetOneKey : Obligations.PressAndReleaseSetOneKey := by
  intro k s hp
  have alive : s.phase ≠ .ended := by simp [hp]
  rw [hostCall_press alive, hostCall_release alive]
  refine ⟨fun hk hf => ?_, fun h => ⟨setKeyOp_refused h true, setKeyOp_refused h false⟩⟩
  have hm : agentsMove s = true := agentsMove_eq_true_iff.mpr ⟨hp, hf⟩
  have pressed : (s.setKey ⟨k, hk⟩ true).getKey ⟨k, hk⟩ = true := getKey_setKey_same s _ true
  have others : ∀ (b : Bool) (j : Fin 16), j.val ≠ k → (s.setKey ⟨k, hk⟩ b).getKey j = s.getKey j :=
    fun b _ hj => getKey_setKey_ne s (k := ⟨k, hk⟩) b hj
  exact ⟨⟨s.setKey ⟨k, hk⟩ true, setKeyOp_of_agentsMove hk hm true, pressed,
      cpuEnabled_eq_true_iff.mpr ⟨⟨hp, hf⟩, .inr ⟨_, pressed⟩⟩, others true, sameBut_setKey s _ _⟩,
    ⟨s.setKey ⟨k, hk⟩ false, setKeyOp_of_agentsMove hk hm false, getKey_setKey_same s _ false, others false,
      sameBut_setKey s _ _⟩⟩

/-- Settles O44: a press leaves a pressed key, and a load a machine that neither waits nor has a fault. -/
theorem holdAndItsLifting : Obligations.HoldAndItsLifting := by
  intro s hp
  have alive : s.phase ≠ .ended := by simp [hp]
  refine ⟨cpuEnabled_eq_true_iff.trans (by simp [hp]), fun k hk hf => ?_, fun bytes hl => ?_⟩
  · obtain ⟨sets, -⟩ := pressAndReleaseSetOneKey k s hp
    obtain ⟨⟨t, ht, -, enabled, -⟩, -⟩ := sets hk hf
    rwa [ht]
  · rw [hostCall_load_state alive, loadImage_of_le hl]
    exact cpuEnabled_eq_true_iff.mpr ⟨⟨rfl, rfl⟩, .inl rfl⟩

/-- Settles O51: the second call reads the flag that the first one cleared. -/
theorem displayChangedReadsAndClears : Obligations.DisplayChangedReadsAndClears := fun s h =>
  ⟨{ s with changed := false }, hostCall_displayChanged h, rfl, sameBut_changed s false,
    hostCall_displayChanged (s := { s with changed := false }) h⟩

/-! ### The framebuffer (R640) -/

/-- 0x80 shifted right by `n` has bit 7 - `n` alone. -/
theorem getLsbD_columnMask : ∀ n i : Fin 8, (0x80#8 >>> n.val).getLsbD (7 - i.val) = decide (i = n) := by decide

/-- Setting column `n` of a byte sets its bit 7 - `n` and keeps the others. -/
theorem getLsbD_setColumn (b : Byte) (pixel : Bool) (n i : Fin 8) :
    (if pixel then b ||| (0x80#8 >>> n.val) else b).getLsbD (7 - i.val) =
      (b.getLsbD (7 - i.val) || (pixel && decide (i = n))) := by
  cases pixel
  · simp
  · simp only [if_true, BitVec.getLsbD_or, getLsbD_columnMask, Bool.true_and]

/-- A byte built column by column, bit 7 first, has the columns set so far in their bits. -/
theorem getLsbD_foldl_columns (c : Nat → Bool) {n : Nat} (hn : n ≤ 8) (i : Fin 8) :
    ((List.range n).foldl (fun b k => if c k then b ||| (0x80#8 >>> k) else b) 0).getLsbD (7 - i.val) =
      (decide (i.val < n) && c i.val) := by
  induction n with
  | zero => simp
  | succ n ih =>
    rw [List.range_succ, List.foldl_append, List.foldl_cons, List.foldl_nil, getLsbD_setColumn _ (c n) ⟨n, hn⟩ i,
      ih (Nat.le_of_succ_le hn)]
    by_cases hi : i.val = n
    · simp [hi, Fin.ext_iff]
    · have hlt : i.val < n + 1 ↔ i.val < n := by omega
      simp [hi, hlt, Fin.ext_iff]

theorem getLsbD_packedByte (s : State) (px : Fin 64) (py : Fin 32) :
    (packedByte s (py.val * 8 + px.val / 8)).getLsbD (7 - px.val % 8) = s.pixel px py := by
  have hcol : columnOf (8 * ((py.val * 8 + px.val / 8) % 8) + px.val % 8) = px :=
    Fin.ext (by simp only [columnOf]; omega)
  have hrow : rowOf ((py.val * 8 + px.val / 8) / 8) = py := Fin.ext (by simp only [rowOf]; omega)
  have hlt : px.val % 8 < 8 := Nat.mod_lt _ (by decide)
  refine (getLsbD_foldl_columns _ (Nat.le_refl 8) ⟨px.val % 8, hlt⟩).trans ?_
  rw [hcol, hrow, decide_eq_true hlt, Bool.true_and]

theorem getElem?_map_range {α : Type} (f : Nat → α) {n j : Nat} (h : j < n) :
    ((List.range n).map f)[j]? = some (f j) := by
  rw [List.getElem?_map, List.getElem?_range h, Option.map_some]

/-- Settles O52: each layout lists its bytes in order, and the byte at a pixel's place is computed from that pixel. -/
theorem framebufferLayouts : Obligations.FramebufferLayouts := by
  intro s
  refine ⟨by simp [framebuffer], fun px py => ?_, by simp [framebuffer], fun px py => ?_,
    fun layout h => hostCall_framebuffer h layout⟩
  · exact ⟨_, getElem?_map_range (packedByte s) (by omega), getLsbD_packedByte s px py⟩
  · have hcol : columnOf (py.val * 64 + px.val) = px := Fin.ext (by simp only [columnOf]; omega)
    have hrow : rowOf ((py.val * 64 + px.val) / 64) = py := Fin.ext (by simp only [rowOf]; omega)
    rw [framebuffer, getElem?_map_range _ (by omega), hcol, hrow]

/-! ### What the units of the timer and the host leave (R635) -/

theorem sameBut_phase (s : State) (p : Phase) : SameBut [] [.phase] s { s with phase := p } := .of_part rfl

theorem sameBut_hostCall {op : HostOp} (s : State) (hload : ∀ bytes, op ≠ .load bytes) :
    SameBut [] [.DT, .ST, .Key, .changed, .phase] s (hostCall op s).1 := by
  rcases hostCall_cases op s with ⟨k, b, h, -⟩ | h | h | h | h | ⟨bytes, hop, -⟩
  · rw [h]; exact (sameBut_setKey s k b).mono (by simp) (by simp)
  · rw [h]; exact (SameBut.refl s).mono (by simp) (by simp)
  · rw [h]; exact (sameBut_changed s false).mono (by simp) (by simp)
  · rw [h]; exact (sameBut_tick s).mono (by simp) (by simp)
  · rw [h]; exact (sameBut_phase s .ended).mono (by simp) (by simp)
  · exact absurd hop (hload bytes)

/-- Settles O19: the tick writes the two timers, and the host's operations but load write them, one key, the changed
flag or the phase. -/
theorem onlyCpuAndLoadWriteMemory : Obligations.OnlyCpuAndLoadWriteMemory := by
  intro u s t h hcpu hload
  cases u with
  | cpu => exact absurd rfl hcpu
  | timer =>
    simp only [runUnit] at h
    split at h <;> cases h
    exact (sameBut_tick s).mono (by simp) (by simp)
  | host op =>
    simp only [runUnit] at h
    split at h <;> cases h
    exact sameBut_hostCall s fun bytes e => hload bytes (congrArg AgentUnit.host e)

/-! ### After a fault (R604) -/

theorem agent_of_unitEnabled_faulted {s : State} {r : FaultRecord} {u : AgentUnit} (hf : s.fault = some r)
    (h : unitEnabled u s = true) : u.agent = .host := by
  cases u with
  | cpu => simp [unitEnabled, cpuEnabled, agentsMove_of_faulted hf] at h
  | timer => simp [unitEnabled, agentsMove_of_faulted hf] at h
  | host op => rfl

/-- Settles O9: the record is all that a raised fault writes, and with it set no agent but the host moves. -/
theorem faultIsPreciseAndFinal : Obligations.FaultIsPreciseAndFinal := by
  refine ⟨fun s t hcpu _ _ h ht => ?_, fun s r hf hcpu => ?_, fun s r hp hf => ?_⟩
  · rw [step_of_cpu hcpu] at h
    obtain ⟨c, rfl⟩ := cpuStep_raises h ht
    rw [fetch_toOption]
    exact ⟨c.kind, BitVec.ofNat 32 c.info, rfl⟩
  · rw [step_of_cpu hcpu]
    exact cpuStep_faulted (s := s.takeUnit) hf
  · have alive : s.phase ≠ .ended := by simp [hp]
    have refused : ∀ k b, setKeyOp k b s = (s, .refused) := fun k => setKeyOp_refused (.inr (by simp [hf]))
    refine ⟨fun _ => agent_of_unitEnabled_faulted hf,
      fun k => ⟨(hostCall_press alive k).trans (refused k true), (hostCall_release alive k).trans (refused k false)⟩,
      ?_, hostCall_isHalted alive, congrArg Prod.snd (hostCall_displayChanged alive), hostCall_framebuffer alive,
      hf ▸ hostCall_readFault alive, fun bytes hl => ?_⟩
    · rw [hostCall_tickTimers alive, agentsMove_of_faulted hf, if_neg Bool.false_ne_true]
    · rw [hostCall_load_state alive, loadImage_of_le hl]

/-! ### After the shutdown (R634) -/

theorem cpuStep_of_ended {s : State} (hp : s.phase = .ended) (hf : s.fault = none) : cpuStep s = .fault .shutDown := by
  simp [cpuStep, hp, hf]

theorem runUnit_of_ended {u : AgentUnit} {s : State} (hp : s.phase = .ended) (h : u ≠ .cpu ∨ s.fault = none) :
    runUnit u s = .fault .shutDown := by
  cases u with
  | cpu => exact cpuStep_of_ended hp (h.resolve_left fun hne => hne rfl)
  | timer => exact if_pos hp
  | host op => exact if_pos hp

/-- Settles O56: the shutdown sets the phase, in which every unit stops. -/
theorem nothingMovesAfterShutdown : Obligations.NothingMovesAfterShutdown := by
  intro s t hp h
  have ended : hostCall .shutdown s = ({ s with phase := .ended }, .done) := if_neg hp
  rw [runUnit_host hp, ended] at h
  cases h
  refine ⟨sameBut_phase s .ended, fun u v hv => ⟨runUnit_of_ended hv, ?_⟩⟩
  rintro r rfl hf
  exact cpuStep_faulted hf

end Sys2Proof.Machine

/-! SUPPORT. Reset, load and the runs of the agents (70_reset_and_hazards.md R700 to R723): what a load leaves in every
part of the state, the created machine, scheduled ticks, and the two ends of a run. -/

namespace Sys2Proof.Machine

/-! ### Cleared registers, keys and display (R701, R702) -/

theorem State.getV_of_cleared {s : State} (h : s.V = Vector.replicate 16 0) (r : Reg) : s.getV r = 0 := by
  simp [State.getV, h]

theorem State.getKey_of_cleared {s : State} (h : s.Key = Vector.replicate 16 false) (k : Fin 16) :
    s.getKey k = false := by
  simp [State.getKey, h]

theorem State.pixel_of_cleared {s : State} (h : s.Pix = Vector.replicate 64 (Vector.replicate 32 false)) (px : Fin 64)
    (py : Fin 32) : s.pixel px py = false := by
  simp [State.pixel, h]

/-! ### The memory after a load (R702) -/

theorem Memory.unlisted_glyph (t : Vector Byte 80) (a : Fin 80) : Memory.unlisted t a.val = t[a] := dif_pos a.isLt

theorem Memory.unlisted_of_le {t : Vector Byte 80} {a : Nat} (h : 80 ≤ a) : Memory.unlisted t a = 0 :=
  dif_neg (Nat.not_lt.mpr h)

section
variable {bytes : List Byte} {s : State} (hl : bytes.length ≤ 3584)
include hl

theorem loadImage_read_image {a : Nat} (ha : a < bytes.length) : (loadImage bytes s).read (0x200 + a) = bytes[a] := by
  have inside : 0x200 ≤ 0x200 + a ∧ 0x200 + a - 0x200 < bytes.length := by omega
  rw [loadImage_of_le hl]
  refine (Memory.read_image.trans (dif_pos inside)).trans ?_
  simp only [Nat.add_sub_cancel_left]

theorem loadImage_read_above {a : Nat} (ha : 0x200 + bytes.length ≤ a) : (loadImage bytes s).read a = 0 := by
  have outside : ¬(0x200 ≤ a ∧ a - 0x200 < bytes.length) := by omega
  rw [loadImage_of_le hl]
  exact (Memory.read_image.trans (dif_neg outside)).trans (Memory.unlisted_of_le (by omega))

theorem loadImage_read_glyph (a : Fin 80) : (loadImage bytes s).read a.val = s.cfg.glyphTable[a] :=
  (loadImage_read_below hl (by omega)).trans (Memory.unlisted_glyph _ a)

/-- Above the glyph table every byte outside the image is zero. -/
theorem loadImage_read_outside {a : Nat} (hglyph : 80 ≤ a) (h : a < 0x200 ∨ 0x200 + bytes.length ≤ a) :
    (loadImage bytes s).read a = 0 := by
  rcases h with h | h
  · exact (loadImage_read_below hl h).trans (Memory.unlisted_of_le hglyph)
  · exact loadImage_read_above hl h

theorem hostCall_load_of_le (h : s.phase ≠ .ended) : hostCall (.load bytes) s = (loadImage bytes s, .done) :=
  (if_neg h).trans (congrArg (Prod.mk _) (if_neg (Nat.not_lt.mpr hl)))

end

/-- Settles O53: an image that fits is installed by `loadImage_of_le`, byte by byte and field by field, and the record
of a longer one holds its length, which fits in the u32 below 2^32. -/
theorem loadResetsAndInstalls : Obligations.LoadResetsAndInstalls := by
  refine fun bytes s h => ⟨fun hl => ?_, fun hl => ?_⟩
  · refine ⟨loadImage bytes s, hostCall_load_of_le hl h, fun _ ha => loadImage_read_image hl ha,
      loadImage_read_glyph hl, fun _ => loadImage_read_outside hl, ?_⟩
    rw [loadImage_of_le hl]
    exact ⟨State.getV_of_cleared rfl, rfl, rfl, rfl, State.getKey_of_cleared rfl, State.pixel_of_cleared rfl, rfl, rfl,
      rfl, rfl, rfl⟩
  · refine ⟨_, _, (hostCall_load_state h bytes).trans (loadImage_of_lt hl), rfl, rfl, fun hlt => ?_, rfl⟩
    exact (BitVec.toNat_ofNat ..).trans (Nat.mod_eq_of_lt hlt)

/-- Settles O16: the state after reset is what a load leaves (O54), and a load meets each of the six. -/
theorem resetMeetsInvariants : Obligations.ResetMeetsInvariants := by
  have short : ([] : List Byte).length ≤ 3584 := Nat.zero_le _
  have reset : State.reset = loadImage [] (createdState specConfig) :=
    resetIsLoadOfEmptyImage.symm.trans (hostCall_load_state (by decide) [])
  unfold Obligations.ResetMeetsInvariants
  rw [reset]
  exact ⟨loadImage_memoryForm short, loadImage_pcInRange short, loadImage_glyphsIntact short,
    loadImage_waitsAtKeyWait short, loadImage_stackInBounds short, loadImage_addressRegistersFit (by decide) short⟩

/-! ### Before the first load (R701, R703) -/

theorem agentsMove_of_created {s : State} (hp : s.phase = .created) : agentsMove s = false := by
  simp [agentsMove, hp]

theorem tick_of_not_agentsMove {s : State} (h : agentsMove s = false) : tick s = s := by
  simp [tick, h]

theorem setKeyOp_of_not_agentsMove {s : State} (h : agentsMove s = false) (k : Nat) (b : Bool) :
    setKeyOp k b s = (s, .refused) := by
  simp [setKeyOp, h]

theorem cpuStep_of_created {s : State} (hp : s.phase = .created) (hf : s.fault = none) :
    cpuStep s = .fault .notLoaded := by
  simp [cpuStep, hp, hf]

/-- Settles O55: the created state is zero field by field, with the memory that reads as zero, and in its phase no agent
moves. -/
theorem creationIsZeroAndStill : Obligations.CreationIsZeroAndStill := by
  refine fun c => ⟨⟨State.getV_of_cleared rfl, rfl, rfl, rfl, rfl, rfl, fun _ => Memory.read_zeroed,
    State.getKey_of_cleared rfl, State.pixel_of_cleared rfl, rfl, rfl, rfl⟩, fun s hp => ?_⟩
  have alive : s.phase ≠ .ended := by simp [hp]
  have still : agentsMove s = false := agentsMove_of_created hp
  refine ⟨?_, ?_, fun k => ⟨?_, ?_⟩⟩
  · cases hf : s.fault with
    | none => exact cpuStep_of_created hp hf
    | some r => exact cpuStep_faulted hf
  · rw [runUnit_timer alive, tick_of_not_agentsMove still]
  · exact (hostCall_press alive k).trans (setKeyOp_of_not_agentsMove still k true)
  · exact (hostCall_release alive k).trans (setKeyOp_of_not_agentsMove still k false)

/-! ### Scheduled ticks (R714) -/

theorem sameBut_takeUnit (s : State) : SameBut [] [.agenda] s s.takeUnit := .of_part rfl

/-- Where the agenda begins with a tick, a step of a running machine is that tick. -/
theorem step_of_scheduled_tick {s : State} {rest : List AgentUnit} (hp : s.phase = .running) (hf : s.fault = none)
    (hagenda : s.agenda = .timer :: rest) :
    ∃ t, step s = .next t ∧ t.phase = .running ∧ t.fault = none ∧ t.agenda = rest ∧
      t.DT.toNat = s.DT.toNat - 1 ∧ t.ST.toNat = s.ST.toNat - 1 ∧ SameBut [] [.DT, .ST, .agenda] s t := by
  obtain ⟨-, t, ht, hDT, hST, frame⟩ := tickDecrementsBothTimers s.takeUnit hp hf
  have ⟨_, unchanged⟩ := frame
  have hnext : nextUnit s = .timer := by rw [nextUnit, hagenda]; rfl
  have htail : s.takeUnit.agenda = rest := congrArg List.tail hagenda
  refine ⟨t, ?_, (unchanged .phase (by decide)).trans hp, (unchanged .fault (by decide)).trans hf,
    (unchanged .agenda (by decide)).trans htail, hDT, hST, ?_⟩
  · rw [step_eq, hnext, ht]
  · exact ((sameBut_takeUnit s).trans frame).mono (by simp) (by simp)

theorem run_succ_of_step {s t : State} (h : step s = .next t) (k : Nat) : core.run (k + 1) s = core.run k t := by
  have hcore : core.step s = .next t := h
  simp only [Host.Core.run, hcore]

/-- Settles O43, by induction on the number of ticks. -/
theorem scheduledTicksCountDown : Obligations.ScheduledTicksCountDown := by
  intro k
  induction k with
  | zero =>
    intro s rest _ _ hagenda
    exact ⟨s, rfl, rfl, rfl, hagenda, (SameBut.refl s).mono (List.nil_subset _) (List.nil_subset _)⟩
  | succ k ih =>
    intro s rest hp hf hagenda
    obtain ⟨t, hstep, hp', hf', hagenda', hDT, hST, frame⟩ := step_of_scheduled_tick hp hf hagenda
    obtain ⟨u, hrun, hDT', hST', hrest, frame'⟩ := ih t rest hp' hf' hagenda'
    refine ⟨u, (run_succ_of_step hstep k).trans hrun, by omega, by omega, hrest, ?_⟩
    exact (frame.trans frame').mono (by simp) (by simp)

/-! ### Weakly fair runs (R216, R722) -/

/-- A sequence that never rises, and infinitely often falls by one where it can, reaches 0: it cannot fall below its
least value. -/
theorem exists_eq_zero_of_falls {f : Nat → Nat} (never_rises : ∀ n, f (n + 1) ≤ f n)
    (falls : ∀ start, ∃ n, start ≤ n ∧ f (n + 1) = f n - 1) : ∃ n, f n = 0 := by
  let least := Function.argmin f
  obtain ⟨n, hn, hfall⟩ := falls least
  have below : f n ≤ f least := antitone_nat_of_succ_le never_rises hn
  have above : f least ≤ f (n + 1) := Function.argmin_le f (n + 1)
  exact ⟨least, by omega⟩

theorem eq_timer_of_agent {u : AgentUnit} (h : u.agent = .timer) : u = .timer := by
  cases u with
  | timer => rfl
  | cpu | host => cases h

/-- Settles O45: the timer's unit is enabled for ever, so the run takes it infinitely often, and each time DT falls by
one or stands at 0. -/
theorem fairRunReachesZeroDelay : Obligations.FairRunReachesZeroDelay := by
  intro u st hrun hfair hlive never_rises
  have ticks := fun n => (hlive n).elim (tickDecrementsBothTimers (st n))
  have taken : ∀ start, ∃ n, start ≤ n ∧ (u n).agent = .timer :=
    hfair .timer ⟨0, fun n _ => ⟨.timer, rfl, (ticks n).1⟩⟩
  have falls : ∀ start, ∃ n, start ≤ n ∧ (st (n + 1)).DT.toNat = (st n).DT.toNat - 1 := by
    intro start
    obtain ⟨n, hn, hagent⟩ := taken start
    obtain ⟨-, hnext⟩ := hrun n
    obtain ⟨-, t, ht, hDT, -⟩ := ticks n
    rw [eq_timer_of_agent hagent, ht] at hnext
    cases hnext
    exact ⟨n, hn, hDT⟩
  obtain ⟨n, hn⟩ := exists_eq_zero_of_falls (f := fun n => (st n).DT.toNat) never_rises falls
  exact ⟨n, BitVec.eq_of_toNat_eq hn⟩

/-! ### The two ends of a run (R723) -/

theorem step_of_empty_agenda {s : State} (h : s.agenda = []) : step s = cpuStep s := by
  have taken : s.takeUnit = s := by
    cases s
    cases h
    rfl
  rw [step_of_cpu (by rw [nextUnit, h]; rfl), taken]

theorem jump_self (s : State) : s.jump s.pc.toNat = s := by
  rw [State.jump, BitVec.ofNat_toNat, BitVec.setWidth_eq]

/-- Settles O57: a self-jump sets pc to itself, and a wait with no key runs its Fx0A again. -/
theorem endsOfRunAreFixedPoints : Obligations.EndsOfRunAreFixedPoints := by
  rintro e s ⟨hp, hf, hend⟩ hwaits hagenda
  cases e with
  | selfJump =>
    obtain ⟨nnn, hw, hself⟩ := hend
    calc step s
      _ = exec (.jp nnn) s := step_of_fetch hagenda hp hf hw rfl
      _ = .next (s.jump nnn.toNat) := rfl
      _ = .next s := by rw [hself, jump_self]
  | waiting =>
    obtain ⟨hhalted, hkeys⟩ := hend
    exact (step_of_empty_agenda hagenda).trans (cpuStep_of_waiting hp hf hhalted hkeys hwaits)

end Sys2Proof.Machine
